-- ==== Sys2Proof/Word.lean ====
section
/-! DEFINITION. The bit-vector widths of the block (R8): a register byte, the match-type mask and the command word.
Every port is an unsigned bit vector, bit 0 least significant (R9, R24). -/

namespace Sys2Proof

/-- A register byte, a BCD byte or a decimal field value: 8 bits, unsigned (`BYTE_W` and `VAL_W` of R8). -/
abbrev Byte := BitVec 8

/-- The match-type mask `{M1, M2, M3, M4, DY}`, `M1` most significant (R9, `MASK_W` of R8). -/
abbrev Mask := BitVec 5

/-- The command word `CW[6:0] = {op[2:0], alm, mt[2:0]}` (R60). -/
abbrev CommandWord := BitVec 7

end Sys2Proof
end

