-- ==== Sys2Proof/Syntax.lean ====
section
/-! DEFINITION. The instructions: the eight rows of the operation table (R63, R64) with the operands their format reads
from the command word (R61, R73), and the assembler lines of R74. -/

namespace Sys2Proof

/-- The alarm select (R66): alarm 1 has 4 register bytes, alarm 2 has 3. -/
inductive Alarm where
  | alarm1
  | alarm2
  deriving DecidableEq, Repr

/-- The eight match-type codes of R65: the six named variants, the code without a name, and the Invalid sentinel
"produced only by decode". -/
inductive MatchType where
  | everySecond
  | everyMinute
  | everyHour
  | everyDay
  | everyWeek
  | everyMonth
  | reserved
  | invalid
  deriving DecidableEq, Repr

/-- One constructor per row of the operation table (R63). An operand is a field of the command word that the operation's
format reads (R61); the data operands stand on the data ports (R71). The two reserved codes have rows of their own (R64). -/
inductive Instr where
  /-- BCD.DEC, format S (R90). -/
  | bcdDec
  /-- BCD.ENC, format S (R92). -/
  | bcdEnc
  /-- MT.ENC, format E (R112). -/
  | mtEnc (alarm : Alarm) (mt : MatchType)
  /-- MT.DEC, format D (R116). -/
  | mtDec (alarm : Alarm)
  /-- ALM.PACK, format E (R130). -/
  | almPack (alarm : Alarm) (mt : MatchType)
  /-- ALM.UNPACK, format D (R140). -/
  | almUnpack (alarm : Alarm)
  /-- RESERVED.6: `op` = 110 selects no operation (R64). -/
  | reserved6
  /-- RESERVED.7: `op` = 111 selects no operation (R64). -/
  | reserved7
  deriving DecidableEq, Repr

/-- The `mt=<name|code>` operand of an assembler line (R74). -/
inductive MtArg where
  | name (t : MatchType)
  | code (n : Nat)
  deriving DecidableEq, Repr

/-- An assembler line of R74, with the numbers as they are written: `alarm` is the source's alarm number, `r` the list of
register bytes, and `sec` is left out for alarm 2. -/
inductive AsmLine where
  | bcdDec (x : Nat)
  | bcdEnc (x : Nat)
  | mtEnc (alarm : Nat) (mt : MtArg)
  | mtDec (alarm : Nat) (r : List Nat)
  | almPack (alarm : Nat) (mt : MtArg) (day hour min : Nat) (sec : Option Nat)
  | almUnpack (alarm : Nat) (r : List Nat)
  deriving DecidableEq, Repr

end Sys2Proof
end

