-- ==== Sys2Proof/WellFormed.lean ====
section
/-! DEFINITION. What the spec calls a legal operand. Every term of `Instr` is one of the 128 command words (R73: decoding is
total), so an `Instr` has no ill-formed term; which of them name a SUCCESSFUL operation is R72's table, given here as
`Instr.legal` straight from the columns of R65. An assembler line (R74) is checked before it is put on the ports. -/

namespace Sys2Proof

/-- "Legal on `mt` for alarm 1 / alarm 2": the two columns of R65, row by row. -/
def MatchType.legalFor : MatchType → Alarm → Bool
  | .everySecond, .alarm1 => true
  | .everySecond, .alarm2 => false
  | .everyMinute, _ => true
  | .everyHour, _ => true
  | .everyDay, _ => true
  | .everyWeek, _ => true
  | .everyMonth, _ => true
  | .reserved, _ => false
  | .invalid, _ => false

/-- The encodings that name a successful operation: the complement of the table of R72. -/
def Instr.legal : Instr → Bool
  | .bcdDec => true
  | .bcdEnc => true
  | .mtEnc a t => t.legalFor a
  | .mtDec _ => true
  | .almPack a t => t.legalFor a
  | .almUnpack _ => true
  | .reserved6 => false
  | .reserved7 => false

/-- `alarm=<1|2>` (R74; "with a 1-bit port no other value can be presented", R66). -/
def alarmNumberOk (n : Nat) : Bool := n == 1 || n == 2

/-- A data operand fits its 8-bit port (R68, R24). -/
def byteOk (n : Nat) : Bool := n < 256

/-- `mt=<name|code>`: a name of R65 (code 6 has none) or a 3-bit code (R74, R65). -/
def MtArg.wellFormed : MtArg → Bool
  | .name t => t != .reserved
  | .code n => n < 8

/-- `r=[<bytes>]`: 4 bytes for alarm 1, 3 for alarm 2 (R66, R74). -/
def registerListOk (alarm : Nat) (r : List Nat) : Bool :=
  r.length == (if alarm == 1 then 4 else 3) && r.all byteOk

/-- `sec` is given for alarm 1 and omitted for alarm 2 (R74). -/
def secondOk (alarm : Nat) : Option Nat → Bool
  | some n => alarm == 1 && byteOk n
  | none => alarm == 2

/-- The checks an assembler line passes before it is assembled (R74). -/
def AsmLine.wellFormed : AsmLine → Bool
  | .bcdDec x => byteOk x
  | .bcdEnc x => byteOk x
  | .mtEnc alarm mt => alarmNumberOk alarm && mt.wellFormed
  | .mtDec alarm r => alarmNumberOk alarm && registerListOk alarm r
  | .almPack alarm mt day hour min sec =>
      alarmNumberOk alarm && mt.wellFormed && byteOk day && byteOk hour && byteOk min && secondOk alarm sec
  | .almUnpack alarm r => alarmNumberOk alarm && registerListOk alarm r

end Sys2Proof
end

