-- ==== Sys2Proof/Decode.lean ====
section
/-! DEFINITION. The command word of R60: its fields, the codes of R63, R65 and R66, the decoder of R73 (total on every list of
bytes, rejecting by name), and the encoder written from the same tables, an ignored field being 0 (R74). -/

namespace Sys2Proof

/-! ### Fields and codes -/

/-- `op` is CW[6:4] (R60). -/
def opField (cw : CommandWord) : BitVec 3 := cw.extractLsb' 4 3

/-- `alm` is CW[3] (R60). -/
def almField (cw : CommandWord) : BitVec 1 := cw.extractLsb' 3 1

/-- `mt` is CW[2:0] (R60). -/
def mtField (cw : CommandWord) : BitVec 3 := cw.extractLsb' 0 3

/-- `CW[6:0] = {op[2:0], alm, mt[2:0]}` (R60). -/
def joinFields (op : BitVec 3) (alm : BitVec 1) (mt : BitVec 3) : CommandWord := op ++ alm ++ mt

/-- `alm` = 0 is alarm 1, `alm` = 1 is alarm 2 (R66). -/
def Alarm.ofBit (b : BitVec 1) : Alarm :=
  match b.toNat with
  | 0 => .alarm1
  | _ => .alarm2

/-- The `alm` port value of an alarm (R66). -/
def Alarm.bit : Alarm → BitVec 1
  | .alarm1 => 0#1
  | .alarm2 => 1#1

/-- The match type a 3-bit code stands for (R65). -/
def MatchType.ofCode (c : BitVec 3) : MatchType :=
  match c.toNat with
  | 0 => .everySecond
  | 1 => .everyMinute
  | 2 => .everyHour
  | 3 => .everyDay
  | 4 => .everyWeek
  | 5 => .everyMonth
  | 6 => .reserved
  | _ => .invalid

/-- The 3-bit code of a match type (R65). -/
def MatchType.code : MatchType → BitVec 3
  | .everySecond => 0#3
  | .everyMinute => 1#3
  | .everyHour => 2#3
  | .everyDay => 3#3
  | .everyWeek => 4#3
  | .everyMonth => 5#3
  | .reserved => 6#3
  | .invalid => 7#3

/-! ### Decoding -/

/-- The decoding procedure of R73 on the 7-bit command word. Only `op` selects the operation (R63); an ignored field is
not looked at (R62). -/
def decodeCommand (cw : CommandWord) : Instr :=
  match (opField cw).toNat with
  | 0 => .bcdDec
  | 1 => .bcdEnc
  | 2 => .mtEnc (Alarm.ofBit (almField cw)) (MatchType.ofCode (mtField cw))
  | 3 => .mtDec (Alarm.ofBit (almField cw))
  | 4 => .almPack (Alarm.ofBit (almField cw)) (MatchType.ofCode (mtField cw))
  | 5 => .almUnpack (Alarm.ofBit (almField cw))
  | 6 => .reserved6
  | _ => .reserved7

/-- Why a list of bytes holds no command word. -/
inductive DecodeError where
  /-- There is no byte at all. -/
  | noCommand
  /-- Bit 7 of the byte is set; "bit 7 of such a byte is not part of the block's interface" (R60, 93 U5: refuse). Log entry 13. -/
  | bitSevenSet
  deriving DecidableEq, Repr

/-- A host "may hold CW in bits 6:0 of a byte" (R60): the instruction of the first byte, and the bytes after it. -/
def decode : List Byte → Except DecodeError (Instr × List Byte)
  | [] => .error .noCommand
  | b :: rest => if b.getLsbD 7 then .error .bitSevenSet else .ok (decodeCommand (b.setWidth 7), rest)

/-! ### Encoding -/

/-- The command word of an instruction (R60, R63, R65, R66); an ignored field is encoded as 0 (R74). -/
def encode : Instr → CommandWord
  | .bcdDec => joinFields 0b000#3 0#1 0#3
  | .bcdEnc => joinFields 0b001#3 0#1 0#3
  | .mtEnc a t => joinFields 0b010#3 a.bit t.code
  | .mtDec a => joinFields 0b011#3 a.bit 0#3
  | .almPack a t => joinFields 0b100#3 a.bit t.code
  | .almUnpack a => joinFields 0b101#3 a.bit 0#3
  | .reserved6 => joinFields 0b110#3 0#1 0#3
  | .reserved7 => joinFields 0b111#3 0#1 0#3

/-- The byte a host holds the command word in: CW in bits 6:0, bit 7 clear (R60). -/
def commandByte (cw : CommandWord) : Byte := cw.setWidth 8

/-! ### The opcode table's numbering -/

/-- The bytes of a `nbits`-bit table word, lowest first; the command word has one length, 7 bits (R60), so the table's row
is one byte. -/
def tableBytes (nbits w : Nat) : List Byte :=
  if nbits = 0 then [] else if w < 256 then [BitVec.ofNat 8 w] else [BitVec.ofNat 8 w, BitVec.ofNat 8 (w / 256)]

/-- The instruction the decoder reads from a table word: exactly one command byte, nothing after it. -/
def decodeTableWord (nbits w : Nat) : Option Instr :=
  match decode (tableBytes nbits w) with
  | .ok (i, []) => some i
  | _ => none

end Sys2Proof
end

