-- ==== Sys2Proof/Config.lean ====
section
/-! DEFINITION. The free values of the model. The block itself leaves nothing open (93, Part 1); what is open concerns
the external chip: what a register holds before it is written, and what a failed transfer leaves in one (U9). The propagation
delay `T_PD` is open too, but the model takes no argument for it (92, Open parameters). -/

namespace Sys2Proof

/-- FREE VALUE. What the battery-backed chip register at an address holds before any write of the program: "an unknown
byte" (R181, R33, U9). One value per address, since it stays until written (R51). Log entry 4. -/
opaque Config.batteryBackedByte : Nat → Byte

/-- FREE VALUE. What the `n`-th failed transfer leaves in the addressed register: the source does not say (R45), so any
value (U9). Log entry 6. -/
opaque Config.failedWriteByte : Nat → Byte

end Sys2Proof
end

