-- ==== Sys2Proof/Machine/State.lean ====
section
/-! DEFINITION. The state of the model as plain data. The block itself holds none (R20): what stands here is the values present
on its ports (R24), the chip's register file (R41, R51), which is the one address space of the system and outside the block, and
the model's own counter of free bytes. Log entries 1 to 6. -/

namespace Sys2Proof.Machine

/-- The input ports (R24). -/
structure Inputs where
  /-- which of the six functions is invoked (R63) -/
  op : BitVec 3
  /-- alarm select (R66) -/
  alm : BitVec 1
  /-- match-type code (R65) -/
  mt : BitVec 3
  /-- BCD.DEC: a BCD byte; BCD.ENC: a decimal value -/
  x : Byte
  /-- `second` of `pack` -/
  dSec : Byte
  /-- `minute` of `pack` -/
  dMin : Byte
  /-- `hour` of `pack` -/
  dHour : Byte
  /-- `day` of `pack` -/
  dDay : Byte
  /-- seconds register byte (R27) -/
  rSec : Byte
  /-- minutes register byte (R28) -/
  rMin : Byte
  /-- hours register byte (R29) -/
  rHour : Byte
  /-- day/date register byte (R30) -/
  rDay : Byte
  deriving DecidableEq, Repr

/-- The output ports (R24). -/
structure Outputs where
  /-- BCD.DEC, BCD.ENC and MT.ENC result -/
  y : Byte
  /-- packed seconds byte (R27) -/
  qSec : Byte
  /-- packed minutes byte (R28) -/
  qMin : Byte
  /-- packed hours byte (R29) -/
  qHour : Byte
  /-- packed day/date byte (R30) -/
  qDay : Byte
  /-- unpacked second -/
  vSec : Byte
  /-- unpacked minute -/
  vMin : Byte
  /-- unpacked hour -/
  vHour : Byte
  /-- unpacked day -/
  vDay : Byte
  /-- 1 when the seconds lane is part of the result (R135, R144) -/
  secPresent : BitVec 1
  /-- match-type result, a code of R65 -/
  mtOut : BitVec 3
  /-- 0 success, 1 InvalidMatchType, 2 IllegalOperation (R160) -/
  err : BitVec 2
  /-- the offending match-type code (R160) -/
  errVal : BitVec 3
  deriving DecidableEq, Repr

/-- Every output 0: what an operation's own outputs are written over (R25, R10). -/
def Outputs.idle : Outputs :=
  { y := 0, qSec := 0, qMin := 0, qHour := 0, qDay := 0, vSec := 0, vMin := 0, vHour := 0, vDay := 0
    secPresent := 0, mtOut := 0, err := 0, errVal := 0 }

/-- The byte-wide data input ports (R24). -/
inductive DataPort where
  | x
  | dSec
  | dMin
  | dHour
  | dDay
  | rSec
  | rMin
  | rHour
  | rDay
  deriving DecidableEq, Repr

/-- The data output ports: every output but `err` and `err_val` (R24, R163). -/
inductive OutPort where
  | y
  | qSec
  | qMin
  | qHour
  | qDay
  | vSec
  | vMin
  | vHour
  | vDay
  | secPresent
  | mtOut
  deriving DecidableEq, Repr

/-- The chip's register file: the bytes a program has written (or a failed transfer disturbed), by address. An unlisted address
holds no byte the program knows (R181): what reading it gives is a free value. -/
abbrev Memory := List Host.Cell

/-- The canonical form: addresses strictly rising, each one of the 16 of the address map (R43). An unlisted address is one whose byte
is unknown, and no entry is unknown, so equal register files are equal lists. -/
abbrev Memory.wf (m : Memory) : Prop :=
  List.Pairwise (fun p q : Host.Cell => p.1 < q.1) m ∧ ∀ p ∈ m, p.1 < 16

/-- Everything one evaluation or one host action reads or writes. -/
structure State where
  /-- the values present on the input ports -/
  inp : Inputs
  /-- the values the last evaluation drove on the output ports -/
  out : Outputs
  /-- the chip's register file, outside the block (R41) -/
  chip : Memory
  /-- THE MODEL'S OWN: how many free bytes failed transfers have used (log entry 6) -/
  freeIndex : Nat
  deriving DecidableEq, Repr

/-- Why a host program stops. No operation of the block faults: its errors are next states (R166). -/
inductive Fault where
  /-- Raised by a host action that uses a data output of an operation whose `err` is not 0 (R169, R188). Safe. Log entry 8. -/
  | failedResultUsed
  /-- Raised by a host action that uses an output that is no part of the operation's result (R25, R135, R196). Safe. Log entry 9. -/
  | meaninglessOutputUsed
  deriving DecidableEq, Repr

/-- What the model gives no meaning to. -/
inductive Refusal where
  /-- An instruction without a meaning in `exec`; none is left. Safe. -/
  | notModelled (mnemonic : String)
  /-- Raised by a transfer to a chip address the map does not list: the source says nothing of it (R43, 91 N5). Safe. Log entry 7. -/
  | unlistedChipAddress
  deriving DecidableEq, Repr

/-- The start. The block has no reset and nothing to reset (R33, R180): the ports hold the values log entries 2 and 3 name, and
no chip register is known (R181). -/
def State.reset : State :=
  { inp :=
      { op := 0, alm := 0, mt := 0, x := 0, dSec := 0, dMin := 0, dHour := 0, dDay := 0
        rSec := 0, rMin := 0, rHour := 0, rDay := 0 }
    out := Outputs.idle
    chip := []
    freeIndex := 0 }

end Sys2Proof.Machine
end

