-- ==== Sys2Proof/Machine/Flags.lean ====
section
/-! DEFINITION. The block has no flags (R23). What it has in their place is the pair of error outputs `err` and `err_val`, a function of
the present inputs that keeps nothing (R160, R165). -/

namespace Sys2Proof.Machine

/-- The two exceptions (R160). -/
inductive Exception where
  /-- InvalidMatchType, identifying the offending value (R161). -/
  | invalidMatchType (t : MatchType)
  /-- IllegalOperation (R162). -/
  | illegalOperation
  deriving DecidableEq, Repr

/-- The code driven on `err` (R160). -/
def Exception.err : Exception → BitVec 2
  | .invalidMatchType _ => 1#2
  | .illegalOperation => 2#2

/-- The detail driven on `err_val`: "In both cases `err_val` = `mt`" (R161), 0 for IllegalOperation (R162). -/
def Exception.errVal : Exception → BitVec 3
  | .invalidMatchType t => t.code
  | .illegalOperation => 0#3

end Sys2Proof.Machine
end

