-- ==== Sys2Proof/Machine/Ops.lean ====
section
/-! DEFINITION. The named operations over ports and chip registers: reading the command word, driving a result, raising an exception
(R10, R163), the chip's register file (R51) and the transport's two primitives (R42, R45). -/

namespace Sys2Proof.Machine

/-! ### Input ports -/

/-- The command word on the control ports (R60). -/
def Inputs.command (p : Inputs) : CommandWord := joinFields p.op p.alm p.mt

/-- The control ports driven with a command word (R60). -/
def Inputs.withCommand (p : Inputs) (cw : CommandWord) : Inputs :=
  { p with op := opField cw, alm := almField cw, mt := mtField cw }

/-- The value on a data input port. -/
def Inputs.read (p : Inputs) : DataPort → Byte
  | .x => p.x
  | .dSec => p.dSec
  | .dMin => p.dMin
  | .dHour => p.dHour
  | .dDay => p.dDay
  | .rSec => p.rSec
  | .rMin => p.rMin
  | .rHour => p.rHour
  | .rDay => p.rDay

/-- One data input port driven with a value. -/
def Inputs.drive (p : Inputs) (d : DataPort) (v : Byte) : Inputs :=
  match d with
  | .x => { p with x := v }
  | .dSec => { p with dSec := v }
  | .dMin => { p with dMin := v }
  | .dHour => { p with dHour := v }
  | .dDay => { p with dDay := v }
  | .rSec => { p with rSec := v }
  | .rMin => { p with rMin := v }
  | .rHour => { p with rHour := v }
  | .rDay => { p with rDay := v }

/-! ### Output ports -/

/-- The value on a data output port, as a byte (a narrower port zero-extended). -/
def Outputs.read (o : Outputs) : OutPort → Byte
  | .y => o.y
  | .qSec => o.qSec
  | .qMin => o.qMin
  | .qHour => o.qHour
  | .qDay => o.qDay
  | .vSec => o.vSec
  | .vMin => o.vMin
  | .vHour => o.vHour
  | .vDay => o.vDay
  | .secPresent => o.secPresent.setWidth 8
  | .mtOut => o.mtOut.setWidth 8

/-- `out.<port> <- v` for every port at once: the block drives its outputs, and nothing else changes (R10, R20). -/
def deliver (o : Outputs) (s : State) : Host.Outcome State Fault Refusal :=
  .next { s with out := o }

/-- `raise`: `err` and `err_val` are driven, every other output with 0 (R10, R160, R163). No state is saved and control goes nowhere
(R166); there is no return from it (R167). -/
def raise (e : Exception) (s : State) : Host.Outcome State Fault Refusal :=
  deliver { Outputs.idle with err := e.err, errVal := e.errVal } s

/-! ### The chip's register file and the transport -/

/-- The byte a program knows an address to hold. -/
def Memory.lookup : Memory → Nat → Option Byte
  | [], _ => none
  | (a, v) :: m, k => if a = k then some v else Memory.lookup m k

/-- The register file after `REG[k]` is set to `v` (R51), in canonical form. -/
def Memory.store : Memory → Nat → Byte → Memory
  | [], k, v => [(k, v)]
  | (a, w) :: m, k, v =>
    if k < a then (k, v) :: (a, w) :: m
    else if k = a then (k, v) :: m
    else (a, w) :: Memory.store m k v

/-- The address map lists 0x00 to 0x0F (R43). -/
def listedAddress (a : Byte) : Bool := a.toNat < 16

/-- `readRegister(address) → byte`: the byte held at the chip register, with no side effect (R42, R51); a byte nothing has written is
a free value (R181). -/
def readRegister (a : Byte) (s : State) : Except Refusal Byte :=
  if listedAddress a then .ok ((Memory.lookup s.chip a.toNat).getD (Config.batteryBackedByte a.toNat))
  else .error .unlistedChipAddress

/-- What `writeRegister` reports (R42). Which of the two is the transport's; it is an input of the model. -/
inductive Transfer where
  | success
  | failure
  deriving DecidableEq, Repr

/-- `writeRegister(address, value) → success/failure`: on success the chip register holds `value` (R42, R51); on failure it holds a free
value (R45, 93 U9). The block is not involved (R45). -/
def writeRegister (a v : Byte) (r : Transfer) (s : State) : Host.Outcome State Fault Refusal :=
  if listedAddress a then
    match r with
    | .success => .next { s with chip := Memory.store s.chip a.toNat v }
    | .failure =>
      .next { s with
        chip := Memory.store s.chip a.toNat (Config.failedWriteByte s.freeIndex)
        freeIndex := s.freeIndex + 1 }
  else .refused .unlistedChipAddress

end Sys2Proof.Machine
end

