-- ==== Sys2Proof/Machine/Operands.lean ====
section
/-! DEFINITION. The data formats (R67 to R70) and how a register byte is assembled and taken apart: the two BCD functions (R90, R92), the four
register-byte formats (R27 to R30), the alarm register sets (R31), and the table of the ports each operation reads and writes (R61). -/

namespace Sys2Proof.Machine

/-! ### BCD -/

/-- `BcdDec(b) = (uint(b) >> 4) * 10 + (uint(b) & 0x0F)` (R90). -/
def bcdDec (b : Byte) : Nat := (b.toNat >>> 4) * 10 + (b.toNat &&& 0x0F)

/-- `(tens << 4) | ones` on unbounded integers (R92). -/
def bcdEncUnbounded (v : Nat) : Nat :=
  let tens := v / 10
  let ones := v - tens * 10
  (tens <<< 4) ||| ones

/-- `BcdEnc(v)`: the low 8 bits of the formula's value (R92, R93). -/
def bcdEnc (v : Nat) : Byte := BitVec.ofNat 8 (bcdEncUnbounded v)

/-! ### Register bytes -/

/-- The four kinds of register byte (R27 to R30). -/
inductive RegisterField where
  | seconds
  | minutes
  | hours
  | dayDate
  deriving DecidableEq, Repr

/-- The field-value bits: 0x7F for seconds and minutes, 0x3F for hours and day/date (R70, R136). -/
def fieldMask : RegisterField → Byte
  | .seconds => 0x7F#8
  | .minutes => 0x7F#8
  | .hours => 0x3F#8
  | .dayDate => 0x3F#8

/-- One bit of a match-type mask (R9). -/
def maskBit (m : Mask) (i : Nat) : BitVec 1 := m.extractLsb' i 1

/-- The control bits of a register byte, in place: M1 to M4 in bit 7, DY in bit 6 of the day/date byte (R27 to R30, R111). -/
def controlBits (f : RegisterField) (m : Mask) : Byte :=
  match f with
  | .seconds => (maskBit m 4).setWidth 8 <<< 7
  | .minutes => (maskBit m 3).setWidth 8 <<< 7
  | .hours => (maskBit m 2).setWidth 8 <<< 7
  | .dayDate => ((maskBit m 0).setWidth 8 <<< 6) ||| ((maskBit m 1).setWidth 8 <<< 7)

/-- A register byte from a field value and a mask: the BCD byte cut to the field-value bits, the control bits ORed in (R132 to R135). -/
def packByte (f : RegisterField) (m : Mask) (v : Byte) : Byte := (bcdEnc v.toNat &&& fieldMask f) ||| controlBits f m

/-- The field value of a register byte: masked first, then BCD-decoded (R141). -/
def fieldValue (f : RegisterField) (b : Byte) : Byte := BitVec.ofNat 8 (bcdDec (b &&& fieldMask f))

/-- The five control bits on the `r_*` ports, `{m1, m2, m3, m4, dy}`; M1 is taken as 0 for alarm 2 (R116, R140). -/
def controlMask (a : Alarm) (p : Inputs) : Mask :=
  let m1 : BitVec 1 := match a with
    | .alarm1 => p.rSec.extractLsb' 7 1
    | .alarm2 => 0#1
  m1 ++ p.rMin.extractLsb' 7 1 ++ p.rHour.extractLsb' 7 1 ++ p.rDay.extractLsb' 7 1 ++ p.rDay.extractLsb' 6 1

/-! ### Alarm register sets -/

/-- The register set of an alarm, in ascending register-address order (R31, R43). -/
def alarmSet : Alarm → List (RegisterField × Byte)
  | .alarm1 => [(.seconds, 0x07#8), (.minutes, 0x08#8), (.hours, 0x09#8), (.dayDate, 0x0A#8)]
  | .alarm2 => [(.minutes, 0x0B#8), (.hours, 0x0C#8), (.dayDate, 0x0D#8)]

/-- The `q_*` port a register byte is delivered on (R31: "ports are named by field"). -/
def RegisterField.outPort : RegisterField → OutPort
  | .seconds => .qSec
  | .minutes => .qMin
  | .hours => .qHour
  | .dayDate => .qDay

/-- The `r_*` port a register byte is presented on (R31). -/
def RegisterField.inPort : RegisterField → DataPort
  | .seconds => .rSec
  | .minutes => .rMin
  | .hours => .rHour
  | .dayDate => .rDay

/-- The `v_*` port an unpacked field is delivered on (R24, R141). -/
def RegisterField.valuePort : RegisterField → OutPort
  | .seconds => .vSec
  | .minutes => .vMin
  | .hours => .vHour
  | .dayDate => .vDay

/-- The `d_*` port a field to be packed is presented on (R24, R130). -/
def RegisterField.operandPort : RegisterField → DataPort
  | .seconds => .dSec
  | .minutes => .dMin
  | .hours => .dHour
  | .dayDate => .dDay

/-! ### What each operation reads and writes -/

/-- The data input ports an operation reads (R61; `d_sec` and `r_sec` only for alarm 1). -/
def readsPort : Instr → DataPort → Bool
  | .bcdDec, d => d == .x
  | .bcdEnc, d => d == .x
  | .mtEnc _ _, _ => false
  | .mtDec a, d => d == .rMin || d == .rHour || d == .rDay || (a == .alarm1 && d == .rSec)
  | .almPack a _, d => d == .dMin || d == .dHour || d == .dDay || (a == .alarm1 && d == .dSec)
  | .almUnpack a, d => d == .rMin || d == .rHour || d == .rDay || (a == .alarm1 && d == .rSec)
  | .reserved6, _ => false
  | .reserved7, _ => false

/-- The data output ports that carry an operation's result when it succeeds: the outputs R61 lists, less the seconds lane for
alarm 2, which is no member of the result (R135, R144). -/
def carriesResult : Instr → OutPort → Bool
  | .bcdDec, q => q == .y
  | .bcdEnc, q => q == .y
  | .mtEnc _ _, q => q == .y
  | .mtDec _, q => q == .mtOut
  | .almPack a _, q =>
      q == .qMin || q == .qHour || q == .qDay || q == .secPresent || (a == .alarm1 && q == .qSec)
  | .almUnpack a, q =>
      q == .vMin || q == .vHour || q == .vDay || q == .secPresent || q == .mtOut || (a == .alarm1 && q == .vSec)
  | .reserved6, _ => false
  | .reserved7, _ => false

end Sys2Proof.Machine
end

