-- ==== Sys2Proof/Machine/MatchTypeCodec.lean ====
section
/-! DEFINITION. The Alarm Match-Type Codec (41_match_type_codec.md): the mask table and its reverse, MT.ENC and MT.DEC. -/

namespace Sys2Proof.Machine

/-- `MtMask`, "defined on exactly these six match types" (R110), as `{M1, M2, M3, M4, DY}`. -/
def mtMask : MatchType → Option Mask
  | .everySecond => some 0b11110#5
  | .everyMinute => some 0b01110#5
  | .everyHour => some 0b00110#5
  | .everyDay => some 0b00010#5
  | .everyWeek => some 0b00001#5
  | .everyMonth => some 0b00000#5
  | .reserved => none
  | .invalid => none

/-- `MtOf`: the table in reverse as an exact match, any other combination being Invalid (R114). -/
def mtOf (m : Mask) : MatchType :=
  match m.toNat with
  | 0x00 => .everyMonth
  | 0x01 => .everyWeek
  | 0x02 => .everyDay
  | 0x06 => .everyHour
  | 0x0E => .everyMinute
  | 0x1E => .everySecond
  | _ => .invalid

/-- The validation of MT.ENC and of step 1 of ALM.PACK, the same test in both (R112, R131): the mask, or InvalidMatchType for a code of no
table row and for EverySecond on alarm 2 (R161). -/
def checkedMask (a : Alarm) (t : MatchType) : Except Exception Mask :=
  match mtMask t with
  | none => .error (.invalidMatchType t)
  | some m => if t = .everySecond ∧ a = .alarm2 then .error (.invalidMatchType t) else .ok m

/-- MT.ENC: `out.y <- zext_8(MtMask(in.mt))`, or InvalidMatchType (R112). -/
def execMtEnc (a : Alarm) (t : MatchType) (s : State) : Host.Outcome State Fault Refusal :=
  match checkedMask a t with
  | .error e => raise e s
  | .ok m => deliver { Outputs.idle with y := m.setWidth 8 } s

/-- MT.DEC: `out.mt_out <- code(MtOf(m1, m2, m3, m4, dy))`; Invalid is a result, not an error (R116). -/
def execMtDec (a : Alarm) (s : State) : Host.Outcome State Fault Refusal :=
  deliver { Outputs.idle with mtOut := (mtOf (controlMask a s.inp)).code } s

end Sys2Proof.Machine
end

