-- ==== Sys2Proof/Machine/AlarmPacker.lean ====
section
/-! DEFINITION. The Alarm Register Packer (42_alarm_register_packer.md): ALM.PACK and ALM.UNPACK. -/

namespace Sys2Proof.Machine

/-- The outputs of a successful ALM.PACK: steps 3 to 7 (R132 to R135). -/
def packed (a : Alarm) (m : Mask) (p : Inputs) : Outputs :=
  { Outputs.idle with
    qDay := packByte .dayDate m p.dDay
    qHour := packByte .hours m p.dHour
    qMin := packByte .minutes m p.dMin
    qSec := match a with
      | .alarm1 => packByte .seconds m p.dSec
      | .alarm2 => 0
    secPresent := match a with
      | .alarm1 => 1
      | .alarm2 => 0 }

/-- ALM.PACK: the validation first, before any data input is looked at (R130, R131), then the register bytes. -/
def execAlmPack (a : Alarm) (t : MatchType) (s : State) : Host.Outcome State Fault Refusal :=
  match checkedMask a t with
  | .error e => raise e s
  | .ok m => deliver (packed a m s.inp) s

/-- The outputs of ALM.UNPACK: field values (R141) and, independently of them, the match type (R142, R143). -/
def unpacked (a : Alarm) (p : Inputs) : Outputs :=
  { Outputs.idle with
    vDay := fieldValue .dayDate p.rDay
    vHour := fieldValue .hours p.rHour
    vMin := fieldValue .minutes p.rMin
    vSec := match a with
      | .alarm1 => fieldValue .seconds p.rSec
      | .alarm2 => 0
    secPresent := match a with
      | .alarm1 => 1
      | .alarm2 => 0
    mtOut := (mtOf (controlMask a p)).code }

/-- ALM.UNPACK: no exception, for any input (R140). -/
def execAlmUnpack (a : Alarm) (s : State) : Host.Outcome State Fault Refusal :=
  deliver (unpacked a s.inp) s

end Sys2Proof.Machine
end

