-- ==== Sys2Proof/Machine/BcdCodec.lean ====
section
/-! DEFINITION. The BCD Codec (40_bcd_codec.md): BCD.DEC and BCD.ENC. Neither validates its operand and neither can raise (R91, R93). -/

namespace Sys2Proof.Machine

/-- BCD.DEC: `out.y <- trunc_8(BcdDec(in.x))` (R90). -/
def execBcdDec (s : State) : Host.Outcome State Fault Refusal :=
  deliver { Outputs.idle with y := BitVec.ofNat 8 (bcdDec s.inp.x) } s

/-- BCD.ENC: `out.y <- BcdEnc(uint(in.x))`, for every operand 0 to 255 (R92, R93). -/
def execBcdEnc (s : State) : Host.Outcome State Fault Refusal :=
  deliver { Outputs.idle with y := bcdEnc s.inp.x.toNat } s

end Sys2Proof.Machine
end

