-- ==== Sys2Proof/Machine/ReservedCodes.lean ====
section
/-! DEFINITION. The two reserved operation codes (R64): each raises IllegalOperation whatever the other inputs hold (R162). -/

namespace Sys2Proof.Machine

/-- `op` = 110 (R64, R162). -/
def execReserved6 (s : State) : Host.Outcome State Fault Refusal := raise .illegalOperation s

/-- `op` = 111 (R64, R162). -/
def execReserved7 (s : State) : Host.Outcome State Fault Refusal := raise .illegalOperation s

end Sys2Proof.Machine
end

