-- ==== Sys2Proof/Machine/Dispatch.lean ====
section
/-! DEFINITION. One arm per row of the operation table (R63, R64). -/

namespace Sys2Proof.Machine

def exec (i : Instr) (s : State) : Host.Outcome State Fault Refusal :=
  match i with
  | .bcdDec => Sys2Proof.Machine.execBcdDec s
  | .bcdEnc => Sys2Proof.Machine.execBcdEnc s
  | .mtEnc a t => Sys2Proof.Machine.execMtEnc a t s
  | .mtDec a => Sys2Proof.Machine.execMtDec a s
  | .almPack a t => Sys2Proof.Machine.execAlmPack a t s
  | .almUnpack a => Sys2Proof.Machine.execAlmUnpack a s
  | .reserved6 => Sys2Proof.Machine.execReserved6 s
  | .reserved7 => Sys2Proof.Machine.execReserved7 s

end Sys2Proof.Machine
end

