-- ==== Sys2Proof/Machine/Step.lean ====
section
/-! DEFINITION. One step is one evaluation (R183): the operation whose command word is on the control ports is evaluated on the values on
the data ports, and its outputs are driven (R20, R22). There is no program counter to move (R22). -/

namespace Sys2Proof.Machine

/-- One evaluation of the block. -/
def step (s : State) : Host.Outcome State Fault Refusal := exec (decodeCommand s.inp.command) s

/-- The command word the opcode table numbers `w` driven on the control ports: CW is bits 6:0 (R60). The block fetches nothing (R22); the
next step evaluates what stands on these ports. Log entry 15. -/
def State.withFetchWord (s : State) (_nbits w : Nat) : State :=
  { s with inp := s.inp.withCommand (BitVec.ofNat 7 w) }

end Sys2Proof.Machine
end

