-- ==== Sys2Proof/Machine/Assembler.lean ====
section
/-! DEFINITION. The assembler notation of R74: the instruction a line names and the port values it presents. An omitted ignored field is 0
(R74), and so is a data port the line does not give. -/

namespace Sys2Proof.Machine

/-- `alarm=1` is `alm` = 0 and `alarm=2` is `alm` = 1 (R74). -/
def alarmOfNumber (n : Nat) : Alarm := if n = 1 then .alarm1 else .alarm2

/-- The match type of an `mt=<name|code>` operand (R74). -/
def matchTypeOfArg : MtArg → MatchType
  | .name t => t
  | .code n => MatchType.ofCode (BitVec.ofNat 3 n)

/-- The instruction an assembler line encodes as (R74). -/
def lineInstr : AsmLine → Instr
  | .bcdDec _ => .bcdDec
  | .bcdEnc _ => .bcdEnc
  | .mtEnc alarm mt => .mtEnc (alarmOfNumber alarm) (matchTypeOfArg mt)
  | .mtDec alarm _ => .mtDec (alarmOfNumber alarm)
  | .almPack alarm mt _ _ _ _ => .almPack (alarmOfNumber alarm) (matchTypeOfArg mt)
  | .almUnpack alarm _ => .almUnpack (alarmOfNumber alarm)

/-- All input ports 0. -/
def Inputs.zero : Inputs :=
  { op := 0, alm := 0, mt := 0, x := 0, dSec := 0, dMin := 0, dHour := 0, dDay := 0
    rSec := 0, rMin := 0, rHour := 0, rDay := 0 }

/-- `r=[r_sec, r_min, r_hour, r_day]` for alarm 1, `r=[r_min, r_hour, r_day]` for alarm 2 (R74). -/
def placeRegisters (r : List Nat) (p : Inputs) : Inputs :=
  match r with
  | [sec, min, hour, day] =>
    { p with rSec := BitVec.ofNat 8 sec, rMin := BitVec.ofNat 8 min, rHour := BitVec.ofNat 8 hour, rDay := BitVec.ofNat 8 day }
  | [min, hour, day] =>
    { p with rMin := BitVec.ofNat 8 min, rHour := BitVec.ofNat 8 hour, rDay := BitVec.ofNat 8 day }
  | _ => p

/-- The data operands of a line on their ports (R74, last column of R24). -/
def placeOperands : AsmLine → Inputs → Inputs
  | .bcdDec x, p => { p with x := BitVec.ofNat 8 x }
  | .bcdEnc x, p => { p with x := BitVec.ofNat 8 x }
  | .mtEnc _ _, p => p
  | .mtDec _ r, p => placeRegisters r p
  | .almPack _ _ day hour min sec, p =>
    { p with
      dDay := BitVec.ofNat 8 day
      dHour := BitVec.ofNat 8 hour
      dMin := BitVec.ofNat 8 min
      dSec := BitVec.ofNat 8 (sec.getD 0) }
  | .almUnpack _ r, p => placeRegisters r p

/-- The port values a well-formed line presents; a line that fails a check of R74 presents none. -/
def assemble (l : AsmLine) : Option Inputs :=
  if l.wellFormed then some (placeOperands l (Inputs.zero.withCommand (encode (lineInstr l)))) else none

/-- The operation code of a mnemonic or of the source's function name, which is accepted too (R63, R74). -/
def opcodeNamed (s : String) : Option (BitVec 3) :=
  if s = "BCD.DEC" ∨ s = "decode" then some 0b000#3
  else if s = "BCD.ENC" ∨ s = "encode" then some 0b001#3
  else if s = "MT.ENC" ∨ s = "encodeMatchType" then some 0b010#3
  else if s = "MT.DEC" ∨ s = "decodeMatchType" then some 0b011#3
  else if s = "ALM.PACK" ∨ s = "pack" then some 0b100#3
  else if s = "ALM.UNPACK" ∨ s = "unpack" then some 0b101#3
  else none

end Sys2Proof.Machine
end

