-- ==== Sys2Proof/Machine/HostLevel.lean ====
section
/-! DEFINITION. The host level (95, section 4): operations presented to the block, transport transfers between its ports and the chip's
registers, and the host's branch on `err`. Each transfer is a step of its own (R48, R192). A data output of a failed operation, or an output
that is no part of the result, may not be used (R169, R25). The block's `step` does not depend on this file. -/

namespace Sys2Proof.Machine

/-- One thing a host does. -/
inductive HostAction where
  /-- All inputs of one evaluation are presented together (R184). -/
  | present (p : Inputs)
  /-- The control ports are driven with a command word. -/
  | setCommand (cw : CommandWord)
  /-- `op` alone is driven: the next operation, with the `alm` and `mt` that stand on their ports (R60). -/
  | selectOperation (op : BitVec 3)
  /-- One data port is driven with a value of the host's. -/
  | setData (d : DataPort) (v : Byte)
  /-- `readRegister`, the byte presented on a data port (R44). -/
  | fetchRegister (d : DataPort) (a : Byte)
  /-- `writeRegister` of the byte on an output port; the transport reports `r` (R42, R44). -/
  | storeResult (q : OutPort) (a : Byte) (r : Transfer)
  /-- A result is presented again as an operand. -/
  | feedBack (q : OutPort) (d : DataPort)
  /-- `mt_out` is presented on `mt` (95, program 3). -/
  | feedMatchType
  deriving DecidableEq, Repr

/-- What a host does with the value of an output port: the outputs are those of the present inputs (R20), and using one of a failed operation
or one that carries no result is a host fault (R169, R188, R196). -/
def useOutput (q : OutPort) (k : Byte → State → Host.Outcome State Fault Refusal) (s : State) :
    Host.Outcome State Fault Refusal :=
  match step s with
  | .next t =>
    if t.out.err ≠ 0 then .fault .failedResultUsed
    else if carriesResult (decodeCommand t.inp.command) q then k (t.out.read q) t
    else .fault .meaninglessOutputUsed
  | .fault f => .fault f
  | .refused r => .refused r

/-- One host action; a change of the inputs is followed by its evaluation (R20). -/
def hostStep (a : HostAction) (s : State) : Host.Outcome State Fault Refusal :=
  match a with
  | .present p => step { s with inp := p }
  | .setCommand cw => step { s with inp := s.inp.withCommand cw }
  | .selectOperation op => step { s with inp := { s.inp with op := op } }
  | .setData d v => step { s with inp := s.inp.drive d v }
  | .fetchRegister d addr =>
    match readRegister addr s with
    | .ok v => step { s with inp := s.inp.drive d v }
    | .error r => .refused r
  | .storeResult q addr r => useOutput q (fun v t => writeRegister addr v r t) s
  | .feedBack q d => useOutput q (fun v t => step { t with inp := t.inp.drive d v }) s
  | .feedMatchType => useOutput .mtOut (fun v t => step { t with inp := { t.inp with mt := v.setWidth 3 } }) s

/-- A host program: actions in order, and the host's own branch on `err`, the only control flow there is (95, section 4). -/
inductive HostProgram where
  | done
  | act (a : HostAction) (k : HostProgram)
  | ifErr (failed succeeded : HostProgram)
  deriving DecidableEq, Repr

/-- A host program run to its end, or to its first fault or refusal. -/
def runHost : HostProgram → State → Host.Outcome State Fault Refusal
  | .done, s => .next s
  | .act a k, s =>
    match hostStep a s with
    | .next t => runHost k t
    | .fault f => .fault f
    | .refused r => .refused r
  | .ifErr failed succeeded, s =>
    match step s with
    | .next t => if t.out.err ≠ 0 then runHost failed t else runHost succeeded t
    | .fault f => .fault f
    | .refused r => .refused r

/-- Host actions one after the other, then a host program. -/
def HostProgram.sequence (l : List HostAction) (k : HostProgram) : HostProgram := l.foldr .act k

/-- Packed bytes written to the chip in the order of the list, one transfer a byte (R44, R48). -/
def storeRegisters (l : List (RegisterField × Byte)) : HostProgram :=
  .sequence (l.map fun p => .storeResult p.1.outPort p.2 .success) .done

/-- Register bytes read from the chip in the order of the list and presented on the `r_*` ports, one transfer a byte (R44, R48). -/
def loadRegisters (l : List (RegisterField × Byte)) : HostProgram :=
  .sequence (l.map fun p => .fetchRegister p.1.inPort p.2) .done

/-- The packed bytes of an alarm written to its registers (R44). DESIGN CHOICE: the transfers go in ascending register address; the order "is not
fixed by the source" (R44), and `storeRegisters` takes any. Log entry 22. -/
def storeAlarmSet (a : Alarm) : HostProgram := storeRegisters (alarmSet a)

/-- The registers of an alarm read and presented (R44). DESIGN CHOICE: in ascending register address, as for `storeAlarmSet`; `loadRegisters` takes
any order. Log entry 22. -/
def loadAlarmSet (a : Alarm) : HostProgram := loadRegisters (alarmSet a)

/-- An alarm read from the chip and unpacked: ALM.UNPACK on the control ports, then the register bytes (R44; 95, program 3, step 1). Transfers in
the order of log entry 22. -/
def readAlarmActions (a : Alarm) : List HostAction :=
  .setCommand (encode (.almUnpack a)) :: (alarmSet a).map fun p => .fetchRegister p.1.inPort p.2

/-- Read-modify-write up to the re-packing (R195; 95, program 3, steps 1 to 3): the alarm is read, its field values and its match type are presented
again, one field is changed, and ALM.PACK is selected with the match type that was read. Storing the result is `storeAlarmSet`. -/
def modifyAlarm (a : Alarm) (f : RegisterField) (v : Byte) : HostProgram :=
  .sequence
    (readAlarmActions a ++ ((alarmSet a).map fun p => .feedBack p.1.valuePort p.1.operandPort) ++
      [.feedMatchType, .setData f.operandPort v, .selectOperation 0b100#3])
    .done

end Sys2Proof.Machine
end

