-- ==== Sys2Proof/Safety.lean ====
section
/-! DEFINITION. The terms the claims use: which outputs are legal in every state an evaluation leaves (R160, R65, R163), the invariant of the
machine, the operand ranges of R185, R187 and R145, and a safe host run. -/

namespace Sys2Proof.Machine

/-- What the output ports may show after an evaluation: `err` is never 3 and `mt_out` never 6 (R160, R65); `err_val` is 0 unless `err` is 1, and
then one of 0, 6 and 7 (R160, R161); and when `err` is not 0 every data output is 0 (R163). -/
def OutputsLegal (o : Outputs) : Prop :=
  o.err ≠ 3#2 ∧ o.mtOut ≠ 6#3 ∧
  (o.err ≠ 1#2 → o.errVal = 0#3) ∧
  (o.err = 1#2 → o.errVal = 0#3 ∨ o.errVal = 6#3 ∨ o.errVal = 7#3) ∧
  (o.err ≠ 0#2 → ∀ q : OutPort, o.read q = 0#8)

/-- The invariant of the machine: the outputs are legal and the chip's register file is in canonical form, within the address map. -/
def State.Inv (s : State) : Prop := OutputsLegal s.out ∧ Memory.wf s.chip

/-- The outputs are those of the inputs that are on the ports now (R20): evaluating changes nothing. -/
def State.Settled (s : State) : Prop := step s = .next s

/-- "Caller is responsible for ensuring `0 ≤ value ≤ 99`" (R185). -/
def BcdContract (v : Byte) : Prop := v.toNat ≤ 99

/-- A valid BCD byte: both nibbles in 0 to 9 (R67). The block never checks it (R91). -/
def ValidBcd (b : Byte) : Prop := b.toNat / 16 ≤ 9 ∧ b.toNat % 16 ≤ 9

/-- The operand a host presents for a year: its last two digits, reduced by the host, not by the block (R186, R97). -/
def yearOperand (year : Nat) : Byte := BitVec.ofNat 8 (year % 100)

/-- A lossless operand set for an alarm: day and hour 0 to 39, minute (and second for alarm 1) 0 to 79 (R145). -/
def Lossless (a : Alarm) (p : Inputs) : Prop :=
  p.dDay.toNat ≤ 39 ∧ p.dHour.toNat ≤ 39 ∧ p.dMin.toNat ≤ 79 ∧ (a = .alarm1 → p.dSec.toNat ≤ 79)

/-- The ranges the chip expects: seconds and minutes 0 to 59, the hour 0 to 23, a day of the week 1 to 7 for EveryWeek and a day of the month 1
to 31 otherwise (R187). -/
def ChipRange (a : Alarm) (t : MatchType) (p : Inputs) : Prop :=
  (a = .alarm1 → p.dSec.toNat ≤ 59) ∧ p.dMin.toNat ≤ 59 ∧ p.dHour.toNat ≤ 23 ∧ 1 ≤ p.dDay.toNat ∧
  p.dDay.toNat ≤ (if t = .everyWeek then 7 else 31)

/-- The register bytes of an ALM.PACK result presented on the `r_*` ports, everything else as it was (R44, R145). -/
def Inputs.presentPacked (p : Inputs) (o : Outputs) : Inputs :=
  { p with rSec := o.qSec, rMin := o.qMin, rHour := o.qHour, rDay := o.qDay }

/-- The field values of an ALM.UNPACK result presented on the `d_*` ports, everything else as it was (R145). -/
def Inputs.presentUnpacked (p : Inputs) (o : Outputs) : Inputs :=
  { p with dSec := o.vSec, dMin := o.vMin, dHour := o.vHour, dDay := o.vDay }

/-- A host run that uses no result it may not use and no address outside the map. -/
def SafeHostRun (prog : HostProgram) (s : State) : Prop := ∃ t, runHost prog s = .next t

end Sys2Proof.Machine
end

