-- ==== Sys2Proof/Certificates/Slice0/Obligations.lean ====
section
/-! DEFINITION. The statements for the provers, in the order of OBLIGATIONS.json. Each docstring names the rule or section of the spec it
formalises, and the log entry where it rests on a choice of the model's. -/

open Sys2Proof Sys2Proof.Machine

/-! ### Encoding -/

/-- One command byte per row of the operation table, written out from R60, R63, R65 and R66, decodes to the row's instruction; a byte with bit
7 set is refused (log entry 13). -/
def Obligations.SampleCommandWordsDecode : Prop :=
  decode [0b00000000#8] = .ok (.bcdDec, []) ∧
  decode [0b00010000#8] = .ok (.bcdEnc, []) ∧
  decode [0b00101101#8] = .ok (.mtEnc .alarm2 .everyMonth, []) ∧
  decode [0b00110111#8] = .ok (.mtDec .alarm1, []) ∧
  decode [0b01000100#8] = .ok (.almPack .alarm1 .everyWeek, []) ∧
  decode [0b01011000#8] = .ok (.almUnpack .alarm2, []) ∧
  decode [0b01100000#8] = .ok (.reserved6, []) ∧
  decode [0b01111111#8] = .ok (.reserved7, []) ∧
  decode [0b10000000#8] = .error .bitSevenSet

/-- The decoding procedure of R73 for every value of the fields, an ignored field included (R62), with the codes of R65 and R66. The
numbers are the spec's decisions D3 to D6 (log entry 14). -/
def Obligations.DecodeFollowsTheOperationCodes : Prop :=
  (∀ (alm : BitVec 1) (mt : BitVec 3) (rest : List Byte),
    decode (commandByte (0b000#3 ++ alm ++ mt) :: rest) = .ok (.bcdDec, rest) ∧
    decode (commandByte (0b001#3 ++ alm ++ mt) :: rest) = .ok (.bcdEnc, rest) ∧
    decode (commandByte (0b010#3 ++ alm ++ mt) :: rest) = .ok (.mtEnc (Alarm.ofBit alm) (MatchType.ofCode mt), rest) ∧
    decode (commandByte (0b011#3 ++ alm ++ mt) :: rest) = .ok (.mtDec (Alarm.ofBit alm), rest) ∧
    decode (commandByte (0b100#3 ++ alm ++ mt) :: rest) = .ok (.almPack (Alarm.ofBit alm) (MatchType.ofCode mt), rest) ∧
    decode (commandByte (0b101#3 ++ alm ++ mt) :: rest) = .ok (.almUnpack (Alarm.ofBit alm), rest) ∧
    decode (commandByte (0b110#3 ++ alm ++ mt) :: rest) = .ok (.reserved6, rest) ∧
    decode (commandByte (0b111#3 ++ alm ++ mt) :: rest) = .ok (.reserved7, rest)) ∧
  Alarm.ofBit 0#1 = .alarm1 ∧ Alarm.ofBit 1#1 = .alarm2 ∧
  MatchType.ofCode 0#3 = .everySecond ∧ MatchType.ofCode 1#3 = .everyMinute ∧ MatchType.ofCode 2#3 = .everyHour ∧
  MatchType.ofCode 3#3 = .everyDay ∧ MatchType.ofCode 4#3 = .everyWeek ∧ MatchType.ofCode 5#3 = .everyMonth ∧
  MatchType.ofCode 6#3 = .reserved ∧ MatchType.ofCode 7#3 = .invalid

/-- Decoding an encoded instruction gives it back, from the byte stream and from the opcode table's word, for every instruction. -/
def Obligations.DecodeInvertsEncode : Prop :=
  ∀ (i : Instr) (rest : List Byte),
    decode (commandByte (encode i) :: rest) = .ok (i, rest) ∧ decodeTableWord 8 (encode i).toNat = some i

/-- The other direction: re-encoding a decoded command word keeps `op`, keeps `alm` and `mt` in format E, keeps `alm` in format D, and leaves
0 in the ignored fields (R61, R74). -/
def Obligations.EncodeKeepsEveryFieldThatIsRead : Prop :=
  ∀ (op : BitVec 3) (alm : BitVec 1) (mt : BitVec 3),
    encode (decodeCommand (op ++ alm ++ mt)) =
      (if op = 0b010#3 ∨ op = 0b100#3 then (op ++ alm ++ mt : BitVec 7)
       else if op = 0b011#3 ∨ op = 0b101#3 then (op ++ alm ++ 0#3 : BitVec 7)
       else (op ++ 0#1 ++ 0#3 : BitVec 7))

/-- A step evaluates the instruction that the command word on the control ports decodes to, and every command word decodes (R73). Nothing is
added around it: there is no program counter (R22). -/
def Obligations.StepRunsTheDecodedInstruction : Prop :=
  (∀ (s : State) (i : Instr) (rest : List Byte),
    decode (commandByte s.inp.command :: rest) = .ok (i, rest) → step s = exec i s) ∧
  (∀ (s : State) (rest : List Byte), ∃ i, decode (commandByte s.inp.command :: rest) = .ok (i, rest)) ∧
  (∀ s : State, s.inp.command = (s.inp.op ++ s.inp.alm ++ s.inp.mt : BitVec 7))

/-- A command word placed by `withFetchWord` is what the next step evaluates, and the data ports, the outputs and the chip stay as they were
(the model's convention, log entry 15). -/
def Obligations.PlacedCommandWordIsEvaluated : Prop :=
  ∀ (s : State) (nbits w : Nat) (i : Instr), decodeTableWord nbits w = some i →
    step (s.withFetchWord nbits w) = exec i (s.withFetchWord nbits w) ∧
    (∀ d : DataPort, (s.withFetchWord nbits w).inp.read d = s.inp.read d) ∧
    (s.withFetchWord nbits w).out = s.out ∧ (s.withFetchWord nbits w).chip = s.chip ∧
    (s.withFetchWord nbits w).freeIndex = s.freeIndex

/-- A well-formed assembler line presents its instruction and its operands (R74, the spec's notation D17; log entry 20): the operation code of its mnemonic (R63), the alarm
number less one on `alm` (R66), the code of the name (R65) or the written code on `mt`, an ignored field 0, and each data operand on its port. -/
def Obligations.AssembledLinePresentsItsOperation : Prop :=
  ∀ l : AsmLine, l.wellFormed = true → ∃ p : Inputs, assemble l = some p ∧ decodeCommand p.command = lineInstr l ∧
    let presentsMt : MtArg → Prop := fun mt =>
      (∀ n, mt = .code n → p.mt.toNat = n) ∧
      (mt = .name .everySecond → p.mt = 0#3) ∧ (mt = .name .everyMinute → p.mt = 1#3) ∧ (mt = .name .everyHour → p.mt = 2#3) ∧
      (mt = .name .everyDay → p.mt = 3#3) ∧ (mt = .name .everyWeek → p.mt = 4#3) ∧ (mt = .name .everyMonth → p.mt = 5#3) ∧
      (mt = .name .invalid → p.mt = 7#3)
    (∀ v, l = .bcdDec v → p.op = 0b000#3 ∧ p.alm = 0#1 ∧ p.mt = 0#3 ∧ p.x.toNat = v) ∧
    (∀ v, l = .bcdEnc v → p.op = 0b001#3 ∧ p.alm = 0#1 ∧ p.mt = 0#3 ∧ p.x.toNat = v) ∧
    (∀ alarm mt, l = .mtEnc alarm mt → p.op = 0b010#3 ∧ p.alm.toNat + 1 = alarm ∧ presentsMt mt) ∧
    (∀ alarm r, l = .mtDec alarm r → p.op = 0b011#3 ∧ p.alm.toNat + 1 = alarm ∧ p.mt = 0#3) ∧
    (∀ alarm mt day hour min sec, l = .almPack alarm mt day hour min sec →
      p.op = 0b100#3 ∧ p.alm.toNat + 1 = alarm ∧ presentsMt mt ∧ p.dDay.toNat = day ∧ p.dHour.toNat = hour ∧ p.dMin.toNat = min ∧
      (∀ v, sec = some v → alarm = 1 ∧ p.dSec.toNat = v) ∧ (sec = none → alarm = 2)) ∧
    (∀ alarm r, l = .almUnpack alarm r → p.op = 0b101#3 ∧ p.alm.toNat + 1 = alarm ∧ p.mt = 0#3) ∧
    (∀ sec min hour day, l = .mtDec 1 [sec, min, hour, day] ∨ l = .almUnpack 1 [sec, min, hour, day] →
      p.rSec.toNat = sec ∧ p.rMin.toNat = min ∧ p.rHour.toNat = hour ∧ p.rDay.toNat = day) ∧
    (∀ min hour day, l = .mtDec 2 [min, hour, day] ∨ l = .almUnpack 2 [min, hour, day] →
      p.rMin.toNat = min ∧ p.rHour.toNat = hour ∧ p.rDay.toNat = day)

/-! ### The six operations and the two reserved codes -/

/-- R90, whole: BCD.DEC gives `(x >> 4) * 10 + (x & 0x0F)` for every one of the 256 values of `x`, `err` 0, every other output 0, whatever `alm`,
`mt` and the other data inputs hold. -/
def Obligations.BcdDecResult : Prop :=
  ∀ s : State,
    let t : State :=
      { s with out := { Outputs.idle with y := BitVec.ofNat 8 ((s.inp.x.toNat >>> 4) * 10 + (s.inp.x.toNat &&& 0x0F)) } }
    exec .bcdDec s = .next t ∧ (s.inp.op = 0b000#3 → step s = .next t) ∧
      t.out.y.toNat = (s.inp.x.toNat >>> 4) * 10 + (s.inp.x.toNat &&& 0x0F)

/-- R92, whole: BCD.ENC gives the low 8 bits of `(tens << 4) | ones` for every one of the 256 values of `x`, `err` 0, every other output 0, whatever
`alm`, `mt` and the other data inputs hold; up to 159 no bit is lost. -/
def Obligations.BcdEncResult : Prop :=
  ∀ s : State,
    let tens := s.inp.x.toNat / 10
    let ones := s.inp.x.toNat - tens * 10
    let t : State := { s with out := { Outputs.idle with y := BitVec.ofNat 8 ((tens <<< 4) ||| ones) } }
    exec .bcdEnc s = .next t ∧ (s.inp.op = 0b001#3 → step s = .next t) ∧
      (s.inp.x.toNat ≤ 159 → t.out.y.toNat = (tens <<< 4) ||| ones) ∧
      (s.inp.x.toNat ≤ 99 → t.out.y.extractLsb' 4 4 ≤ 9#4 ∧ t.out.y.extractLsb' 0 4 ≤ 9#4)

/-- R110, whole: the mask table, with every cell and the `mt` code of each row; it is defined on exactly these six, and any other
match type is an input error. -/
def Obligations.MaskTable : Prop :=
  (mtMask .everySecond = some 0b11110#5 ∧ MatchType.code .everySecond = 0#3) ∧
  (mtMask .everyMinute = some 0b01110#5 ∧ MatchType.code .everyMinute = 1#3) ∧
  (mtMask .everyHour = some 0b00110#5 ∧ MatchType.code .everyHour = 2#3) ∧
  (mtMask .everyDay = some 0b00010#5 ∧ MatchType.code .everyDay = 3#3) ∧
  (mtMask .everyMonth = some 0b00000#5 ∧ MatchType.code .everyMonth = 5#3) ∧
  (mtMask .everyWeek = some 0b00001#5 ∧ MatchType.code .everyWeek = 4#3) ∧
  mtMask .reserved = none ∧ mtMask .invalid = none ∧
  ∀ (t : MatchType) (a : Alarm) (s : State), mtMask t = none →
    ∃ u, exec (.mtEnc a t) s = .next u ∧ u.out.err = 1#2 ∧ u.out.errVal = t.code

/-- The reverse table of 41, section 3: six combinations are valid, every other one of the 32 is Invalid. -/
def Obligations.ReverseMaskTable : Prop :=
  mtOf 0x00#5 = .everyMonth ∧ mtOf 0x01#5 = .everyWeek ∧ mtOf 0x02#5 = .everyDay ∧
  mtOf 0x06#5 = .everyHour ∧ mtOf 0x0E#5 = .everyMinute ∧ mtOf 0x1E#5 = .everySecond ∧
  ∀ m : Mask, m ≠ 0x00#5 → m ≠ 0x01#5 → m ≠ 0x02#5 → m ≠ 0x06#5 → m ≠ 0x0E#5 → m ≠ 0x1E#5 → mtOf m = .invalid

/-- R112, whole: MT.ENC delivers the mask in `y[4:0]`, or raises InvalidMatchType in exactly the two cases, whatever the data inputs hold. -/
def Obligations.MtEncResult : Prop :=
  ∀ (s : State) (a : Alarm) (t : MatchType),
    let refusedInput := t = .reserved ∨ t = .invalid ∨ (t = .everySecond ∧ a = .alarm2)
    (¬ refusedInput → ∃ m, mtMask t = some m ∧
      exec (.mtEnc a t) s = .next { s with out := { Outputs.idle with y := m.setWidth 8 } }) ∧
    (refusedInput →
      exec (.mtEnc a t) s = .next { s with out := { Outputs.idle with err := 1#2, errVal := t.code } }) ∧
    (s.inp.op = 0b010#3 → s.inp.alm = a.bit → s.inp.mt = t.code → step s = exec (.mtEnc a t) s)

/-- R116, whole: MT.DEC takes M4 and DY from bits 7 and 6 of the day/date byte, M3, M2 and M1 from bit 7 of the hours, minutes and seconds
bytes, M1 as 0 for alarm 2, and delivers the code of `MtOf`; it never raises, and `mt` is ignored. -/
def Obligations.MtDecResult : Prop :=
  ∀ (s : State) (a : Alarm),
    let m4 := BitVec.ofBool (s.inp.rDay.getLsbD 7)
    let dy := BitVec.ofBool (s.inp.rDay.getLsbD 6)
    let m3 := BitVec.ofBool (s.inp.rHour.getLsbD 7)
    let m2 := BitVec.ofBool (s.inp.rMin.getLsbD 7)
    let m1 := if a = .alarm1 then BitVec.ofBool (s.inp.rSec.getLsbD 7) else 0#1
    let t : State := { s with out := { Outputs.idle with mtOut := (mtOf (m1 ++ m2 ++ m3 ++ m4 ++ dy)).code } }
    exec (.mtDec a) s = .next t ∧ (s.inp.op = 0b011#3 → s.inp.alm = a.bit → step s = .next t)

/-- R130 and R131, whole: ALM.PACK validates first; a refused match type gives no register byte; otherwise the bytes are those of the pseudocode,
alarm 2 without a seconds byte. -/
def Obligations.AlmPackResult : Prop :=
  ∀ (s : State) (a : Alarm) (t : MatchType),
    let refusedInput := t = .reserved ∨ t = .invalid ∨ (t = .everySecond ∧ a = .alarm2)
    let enc : Byte → Byte := fun v => BitVec.ofNat 8 (((v.toNat / 10) <<< 4) ||| (v.toNat - v.toNat / 10 * 10))
    (¬ refusedInput → ∃ m, mtMask t = some m ∧
      let bit : Nat → Byte := fun i => (BitVec.ofBool (m.getLsbD i)).setWidth 8
      exec (.almPack a t) s = .next { s with out := { Outputs.idle with
        qDay := ((enc s.inp.dDay &&& 0x3F#8) ||| (bit 0 <<< 6)) ||| (bit 1 <<< 7)
        qHour := (enc s.inp.dHour &&& 0x3F#8) ||| (bit 2 <<< 7)
        qMin := (enc s.inp.dMin &&& 0x7F#8) ||| (bit 3 <<< 7)
        qSec := if a = .alarm1 then (enc s.inp.dSec &&& 0x7F#8) ||| (bit 4 <<< 7) else 0#8
        secPresent := if a = .alarm1 then 1#1 else 0#1 } }) ∧
    (refusedInput →
      exec (.almPack a t) s = .next { s with out := { Outputs.idle with err := 1#2, errVal := t.code } }) ∧
    (s.inp.op = 0b100#3 → s.inp.alm = a.bit → s.inp.mt = t.code → step s = exec (.almPack a t) s)

/-- R140, whole: ALM.UNPACK delivers the masked and BCD-decoded fields, the seconds lane only for alarm 1, and the match type as MT.DEC does; it never
raises, and `mt` is ignored. -/
def Obligations.AlmUnpackResult : Prop :=
  ∀ (s : State) (a : Alarm),
    let dec : Byte → Byte := fun b => BitVec.ofNat 8 ((b.toNat >>> 4) * 10 + (b.toNat &&& 0x0F))
    let m4 := BitVec.ofBool (s.inp.rDay.getLsbD 7)
    let dy := BitVec.ofBool (s.inp.rDay.getLsbD 6)
    let m3 := BitVec.ofBool (s.inp.rHour.getLsbD 7)
    let m2 := BitVec.ofBool (s.inp.rMin.getLsbD 7)
    let m1 := if a = .alarm1 then BitVec.ofBool (s.inp.rSec.getLsbD 7) else 0#1
    let t : State := { s with out := { Outputs.idle with
      vDay := dec (s.inp.rDay &&& 0x3F#8)
      vHour := dec (s.inp.rHour &&& 0x3F#8)
      vMin := dec (s.inp.rMin &&& 0x7F#8)
      vSec := if a = .alarm1 then dec (s.inp.rSec &&& 0x7F#8) else 0#8
      secPresent := if a = .alarm1 then 1#1 else 0#1
      mtOut := (mtOf (m1 ++ m2 ++ m3 ++ m4 ++ dy)).code } }
    exec (.almUnpack a) s = .next t ∧ (s.inp.op = 0b101#3 → s.inp.alm = a.bit → step s = .next t) ∧
      t.out.vDay.toNat ≤ 45 ∧ t.out.vHour.toNat ≤ 45 ∧ t.out.vMin.toNat ≤ 85 ∧ t.out.vSec.toNat ≤ 85

/-- A reserved operation code raises IllegalOperation, whatever `alm`, `mt` and the data inputs hold: `err` 2, `err_val` 0, every other output 0 (30, section 2;
60, section 1; the spec's decision D12; a next state, log entry 21). -/
def Obligations.ReservedCodesRaiseIllegalOperation : Prop :=
  ∀ s : State,
    let t : State := { s with out := { Outputs.idle with err := 2#2 } }
    exec .reserved6 s = .next t ∧ exec .reserved7 s = .next t ∧
    (s.inp.op = 0b110#3 ∨ s.inp.op = 0b111#3 → step s = .next t)

/-! ### Errors -/

/-- R161, whole: InvalidMatchType is raised by MT.ENC and ALM.PACK and by nothing else, in exactly the two cases, on `mt` and `alm` alone, with
`err_val` the offending code. -/
def Obligations.InvalidMatchTypeExactly : Prop :=
  ∀ (i : Instr) (s : State), ∃ t, exec i s = .next t ∧
    (t.out.err = 1#2 ↔ ∃ a mt, (i = .mtEnc a mt ∨ i = .almPack a mt) ∧
      (mt = .reserved ∨ mt = .invalid ∨ (mt = .everySecond ∧ a = .alarm2))) ∧
    (∀ a mt, (i = .mtEnc a mt ∨ i = .almPack a mt) → t.out.err = 1#2 →
      t.out.errVal = mt.code ∧ (mt = .reserved → t.out.errVal = 6#3) ∧ (mt = .invalid → t.out.errVal = 7#3) ∧
      (mt = .everySecond → t.out.errVal = 0#3))

/-- Every operation answers, and its outcome is one of three: success with `err_val` 0 exactly for the encodings that R72's table does not list,
InvalidMatchType, IllegalOperation with `err_val` 0 exactly for the reserved codes; `err` is never 3 (60, sections 1 and 2; 30, section 5). -/
def Obligations.EveryOutcomeIsOneOfThree : Prop :=
  ∀ (i : Instr) (s : State), ∃ t, exec i s = .next t ∧
    (t.out.err = 0#2 ↔ i.legal = true) ∧
    (t.out.err = 2#2 ↔ i = .reserved6 ∨ i = .reserved7) ∧
    t.out.err ≠ 3#2 ∧ (t.out.err ≠ 1#2 → t.out.errVal = 0#3)

/-- Of the 128 command words 42 raise and 86 succeed, whatever the data inputs hold (30, section 5; 95, section 3, property 11). -/
def Obligations.RaisingCommandWordsCounted : Prop :=
  (∀ (s : State) (cw : CommandWord), ∃ t, step { s with inp := s.inp.withCommand cw } = .next t ∧
    (t.out.err = 0#2 ↔ (decodeCommand cw).legal = true)) ∧
  ((List.range 128).filter (fun n => (decodeCommand (BitVec.ofNat 7 n)).legal)).length = 86 ∧
  ((List.range 128).filter (fun n => !(decodeCommand (BitVec.ofNat 7 n)).legal)).length = 42

/-- An output that carries no result of the operation, and every data output of an operation that raises, is 0 (10, section 2; 60, section 1; the
spec's decisions D10, D11 and D14; log entry 10). -/
def Obligations.OutputsThatCarryNoResultAreZero : Prop :=
  ∀ s : State, ∃ t, step s = .next t ∧
    ∀ q : OutPort, (t.out.err ≠ 0#2 ∨ carriesResult (decodeCommand s.inp.command) q = false) → t.out.read q = 0#8

/-- Which data ports carry an operation's operands and which its result (30, section 1; 10, section 2; the seconds lane only for alarm 1: 42,
section 1, R135's decision D14). -/
def Obligations.OperandAndResultPorts : Prop :=
  (∀ i : Instr, i = .bcdDec ∨ i = .bcdEnc →
    (∀ d, readsPort i d = true ↔ d = .x) ∧ ∀ q, carriesResult i q = true ↔ q = .y) ∧
  (∀ a t, (∀ d, readsPort (.mtEnc a t) d = false) ∧ ∀ q, carriesResult (.mtEnc a t) q = true ↔ q = .y) ∧
  (∀ a, (∀ d, readsPort (.mtDec a) d = true ↔ d = .rMin ∨ d = .rHour ∨ d = .rDay ∨ (a = .alarm1 ∧ d = .rSec)) ∧
    ∀ q, carriesResult (.mtDec a) q = true ↔ q = .mtOut) ∧
  (∀ a t, (∀ d, readsPort (.almPack a t) d = true ↔ d = .dMin ∨ d = .dHour ∨ d = .dDay ∨ (a = .alarm1 ∧ d = .dSec)) ∧
    ∀ q, carriesResult (.almPack a t) q = true ↔
      q = .qMin ∨ q = .qHour ∨ q = .qDay ∨ q = .secPresent ∨ (a = .alarm1 ∧ q = .qSec)) ∧
  (∀ a, (∀ d, readsPort (.almUnpack a) d = true ↔ d = .rMin ∨ d = .rHour ∨ d = .rDay ∨ (a = .alarm1 ∧ d = .rSec)) ∧
    ∀ q, carriesResult (.almUnpack a) q = true ↔
      q = .vMin ∨ q = .vHour ∨ q = .vDay ∨ q = .secPresent ∨ q = .mtOut ∨ (a = .alarm1 ∧ q = .vSec))

/-! ### Statelessness, frames and independence -/

/-- An operation leaves every input port, every byte of the chip and the model's counter as they were; the outputs alone are driven. -/
def Obligations.OperationsChangeOnlyTheOutputs : Prop :=
  ∀ (i : Instr) (s t : State), exec i s = .next t →
    t.inp.op = s.inp.op ∧ t.inp.alm = s.inp.alm ∧ t.inp.mt = s.inp.mt ∧ (∀ d : DataPort, t.inp.read d = s.inp.read d) ∧
    t.inp = s.inp ∧ (∀ a : Byte, readRegister a t = readRegister a s) ∧ t.chip = s.chip ∧ t.freeIndex = s.freeIndex

/-- R40: no operation reads or writes anything but the ports. Two states with the same inputs, whatever their chip registers, former outputs and counter, get
the same outputs, and each keeps its own chip. -/
def Obligations.OperationsTouchOnlyThePorts : Prop :=
  ∀ (i : Instr) (s s' : State), s.inp = s'.inp →
    ∃ o : Outputs, exec i s = .next { s with out := o } ∧ exec i s' = .next { s' with out := o }

/-- The outputs are a function of the values present on the input ports and of nothing earlier: evaluating again changes nothing, and what was evaluated in
between leaves no trace (10, section 1; 60, section 3: an operation after a failing one behaves as if the failure had not happened). -/
def Obligations.OutputsDependOnPresentInputsOnly : Prop :=
  ∀ (s : State) (p q : Inputs), ∃ t u v,
    step { s with inp := p } = .next t ∧ step t = .next t ∧
    step { t with inp := q } = .next u ∧ step { u with inp := p } = .next v ∧ v = t

/-- A port or field the selected operation does not read has no effect: two input sets that select the same instruction and agree on the data ports it reads
get the same outputs (30, section 1; the spec's decision D15). -/
def Obligations.IgnoredInputsHaveNoEffect : Prop :=
  ∀ s s' : State, decodeCommand s.inp.command = decodeCommand s'.inp.command →
    (∀ d, readsPort (decodeCommand s.inp.command) d = true → s.inp.read d = s'.inp.read d) →
    ∃ o : Outputs, step s = .next { s with out := o } ∧ step s' = .next { s' with out := o }

/-- The two halves of an ALM.UNPACK result are independent: the field outputs do not depend on the control bits, `mt_out` does not depend on the field bits, and
`err` is 0 (42, section 2). -/
def Obligations.UnpackHalvesAreIndependent : Prop :=
  ∀ (a : Alarm) (s s' : State), ∃ t t', exec (.almUnpack a) s = .next t ∧ exec (.almUnpack a) s' = .next t' ∧
    t.out.err = 0#2 ∧
    (s.inp.rSec &&& 0x7F#8 = s'.inp.rSec &&& 0x7F#8 → s.inp.rMin &&& 0x7F#8 = s'.inp.rMin &&& 0x7F#8 →
      s.inp.rHour &&& 0x3F#8 = s'.inp.rHour &&& 0x3F#8 → s.inp.rDay &&& 0x3F#8 = s'.inp.rDay &&& 0x3F#8 →
      t.out.vSec = t'.out.vSec ∧ t.out.vMin = t'.out.vMin ∧ t.out.vHour = t'.out.vHour ∧ t.out.vDay = t'.out.vDay) ∧
    (s.inp.rSec &&& 0x80#8 = s'.inp.rSec &&& 0x80#8 → s.inp.rMin &&& 0x80#8 = s'.inp.rMin &&& 0x80#8 →
      s.inp.rHour &&& 0x80#8 = s'.inp.rHour &&& 0x80#8 → s.inp.rDay &&& 0xC0#8 = s'.inp.rDay &&& 0xC0#8 →
      t.out.mtOut = t'.out.mtOut)

/-- R142: the `mt_out` of ALM.UNPACK is that of MT.DEC for the same `alm` and the same register bytes. -/
def Obligations.UnpackAndMtDecAgree : Prop :=
  ∀ (a : Alarm) (s : State), ∃ t u, exec (.almUnpack a) s = .next t ∧ exec (.mtDec a) s = .next u ∧ t.out.mtOut = u.out.mtOut

/-! ### Register byte formats -/

/-- The seconds and minutes bytes (10, section 3; 42, sections 1 and 2): bit 7 of the seconds (minutes) byte is `mask[4]` (`mask[3]`), bits 6:0 are bits 6:0 of the BCD byte, for every operand;
reading back, the tens digit is bits 6:4, the ones digit bits 3:0, not checked. That nothing is discarded up to 79 is the spec's own derivation (42, section 1, the table of R137).
That alarm 2 shows `v_sec` = 0 and `sec_present` = 0 is the spec's decision D14 (log entry 10, DEDUCED). -/
def Obligations.SecondAndMinuteByteFormats : Prop :=
  (∀ (s : State) (t : MatchType) (m : Mask), mtMask t = some m → ∃ u,
    exec (.almPack .alarm1 t) s = .next u ∧
    u.out.qSec.getLsbD 7 = m.getLsbD 4 ∧
    u.out.qSec.extractLsb' 4 3 = (bcdEnc s.inp.dSec.toNat).extractLsb' 4 3 ∧
    u.out.qSec.extractLsb' 0 4 = (bcdEnc s.inp.dSec.toNat).extractLsb' 0 4 ∧
    (s.inp.dSec.toNat ≤ 79 → u.out.qSec &&& 0x7F#8 = bcdEnc s.inp.dSec.toNat)) ∧
  (∀ (s : State) (a : Alarm) (t : MatchType) (m : Mask), mtMask t = some m → ¬ (t = .everySecond ∧ a = .alarm2) → ∃ u,
    exec (.almPack a t) s = .next u ∧
    u.out.qMin.getLsbD 7 = m.getLsbD 3 ∧
    u.out.qMin.extractLsb' 4 3 = (bcdEnc s.inp.dMin.toNat).extractLsb' 4 3 ∧
    u.out.qMin.extractLsb' 0 4 = (bcdEnc s.inp.dMin.toNat).extractLsb' 0 4 ∧
    (s.inp.dMin.toNat ≤ 79 → u.out.qMin &&& 0x7F#8 = bcdEnc s.inp.dMin.toNat)) ∧
  (∀ (s : State) (a : Alarm), ∃ u, exec (.almUnpack a) s = .next u ∧
    u.out.vMin.toNat = 10 * (s.inp.rMin.extractLsb' 4 3).toNat + (s.inp.rMin.extractLsb' 0 4).toNat ∧
    (a = .alarm1 → u.out.vSec.toNat = 10 * (s.inp.rSec.extractLsb' 4 3).toNat + (s.inp.rSec.extractLsb' 0 4).toNat) ∧
    (a = .alarm2 → u.out.vSec = 0#8 ∧ u.out.secPresent = 0#1) ∧
    (∃ w, exec (.mtDec a) s = .next w ∧
      u.out.mtOut = (mtOf (controlMask a s.inp)).code ∧ w.out.mtOut = (mtOf (controlMask a s.inp)).code) ∧
    (controlMask a s.inp).getLsbD 3 = s.inp.rMin.getLsbD 7 ∧
    (a = .alarm1 → (controlMask a s.inp).getLsbD 4 = s.inp.rSec.getLsbD 7)) ∧
  (RegisterField.seconds, 0x07#8) ∈ alarmSet .alarm1 ∧ (RegisterField.minutes, 0x08#8) ∈ alarmSet .alarm1 ∧
  (RegisterField.minutes, 0x0B#8) ∈ alarmSet .alarm2 ∧ (∀ a : Byte, (RegisterField.seconds, a) ∉ alarmSet .alarm2)

/-- R30 and R132, whole: bit 7 of the day/date byte is `mask[1]`, bit 6 is `mask[0]` and 1 only for EveryWeek, bits 5:0 are the low 6 bits of the BCD byte, for
every operand and every match type alike; reading back, the tens digit is bits 5:4, the ones digit bits 3:0, not checked. Up to 39 nothing is discarded. -/
def Obligations.DayByteFormat : Prop :=
  (∀ (s : State) (a : Alarm) (t : MatchType) (m : Mask), mtMask t = some m → ¬ (t = .everySecond ∧ a = .alarm2) → ∃ u,
    exec (.almPack a t) s = .next u ∧
    u.out.qDay.getLsbD 7 = m.getLsbD 1 ∧ u.out.qDay.getLsbD 6 = m.getLsbD 0 ∧ (m.getLsbD 0 = true ↔ t = .everyWeek) ∧
    u.out.qDay.extractLsb' 4 2 = (bcdEnc s.inp.dDay.toNat).extractLsb' 4 2 ∧
    u.out.qDay.extractLsb' 0 4 = (bcdEnc s.inp.dDay.toNat).extractLsb' 0 4 ∧
    (s.inp.dDay.toNat ≤ 39 → u.out.qDay &&& 0x3F#8 = bcdEnc s.inp.dDay.toNat)) ∧
  (∀ (s : State) (a : Alarm), ∃ u, exec (.almUnpack a) s = .next u ∧
    u.out.vDay.toNat = 10 * (s.inp.rDay.extractLsb' 4 2).toNat + (s.inp.rDay.extractLsb' 0 4).toNat ∧
    (∃ w, exec (.mtDec a) s = .next w ∧
      u.out.mtOut = (mtOf (controlMask a s.inp)).code ∧ w.out.mtOut = (mtOf (controlMask a s.inp)).code) ∧
    (controlMask a s.inp).getLsbD 1 = s.inp.rDay.getLsbD 7 ∧ (controlMask a s.inp).getLsbD 0 = s.inp.rDay.getLsbD 6) ∧
  (RegisterField.dayDate, 0x0A#8) ∈ alarmSet .alarm1 ∧ (RegisterField.dayDate, 0x0D#8) ∈ alarmSet .alarm2

/-- The hours byte: bit 7 is `mask[2]`, bit 6 is always 0 whatever the operand, bits 5:0 are the low 6 bits of the BCD byte; reading back, bit 6 is ignored (10, section
3; 42, sections 1 and 2). Up to 39 nothing is discarded. -/
def Obligations.HourByteFormat : Prop :=
  (∀ (s : State) (a : Alarm) (t : MatchType) (m : Mask), mtMask t = some m → ¬ (t = .everySecond ∧ a = .alarm2) → ∃ u,
    exec (.almPack a t) s = .next u ∧
    u.out.qHour.getLsbD 7 = m.getLsbD 2 ∧ u.out.qHour.getLsbD 6 = false ∧
    u.out.qHour.extractLsb' 0 6 = (bcdEnc s.inp.dHour.toNat).extractLsb' 0 6 ∧
    (s.inp.dHour.toNat ≤ 39 → u.out.qHour &&& 0x3F#8 = bcdEnc s.inp.dHour.toNat)) ∧
  (∀ (s : State) (a : Alarm), ∃ u, exec (.almUnpack a) s = .next u ∧
    u.out.vHour.toNat = 10 * (s.inp.rHour.extractLsb' 4 2).toNat + (s.inp.rHour.extractLsb' 0 4).toNat ∧
    exec (.almUnpack a) { s with inp := { s.inp with rHour := s.inp.rHour ^^^ 0x40#8 } } =
      .next { u with inp := { s.inp with rHour := s.inp.rHour ^^^ 0x40#8 } })

/-- R31, whole: the register set of each alarm, in ascending register-address order, and the ports its bytes are delivered and presented on, by field. -/
def Obligations.AlarmRegisterSets : Prop :=
  alarmSet .alarm1 = [(.seconds, 0x07#8), (.minutes, 0x08#8), (.hours, 0x09#8), (.dayDate, 0x0A#8)] ∧
  alarmSet .alarm2 = [(.minutes, 0x0B#8), (.hours, 0x0C#8), (.dayDate, 0x0D#8)] ∧
  (∀ a, ((alarmSet a).map fun p => p.2.toNat).Pairwise (· < ·)) ∧
  (alarmSet .alarm1).map (fun p => p.1.outPort) = [.qSec, .qMin, .qHour, .qDay] ∧
  (alarmSet .alarm2).map (fun p => p.1.outPort) = [.qMin, .qHour, .qDay] ∧
  (alarmSet .alarm1).map (fun p => p.1.inPort) = [.rSec, .rMin, .rHour, .rDay] ∧
  (alarmSet .alarm2).map (fun p => p.1.inPort) = [.rMin, .rHour, .rDay]

/-! ### Laws of the codecs, through the machine -/

/-- The closed forms of 40, section 3: BCD.DEC is `x - 6 * hi`, at most 165; BCD.ENC is `x + 6 * (x div 10)`, less 256 from 160 on, with low nibble `x mod 10`; it is strictly
increasing on 0 to 159 and repeats from 160. From 160 on this rests on the spec's decision D8 (log entry 11). -/
def Obligations.BcdClosedForms : Prop :=
  (∀ s : State, ∃ t, exec .bcdDec s = .next t ∧
    t.out.y.toNat = s.inp.x.toNat - 6 * (s.inp.x.toNat / 16) ∧ t.out.y.toNat ≤ 165) ∧
  (∀ s : State, ∃ t, exec .bcdEnc s = .next t ∧
    (s.inp.x.toNat ≤ 159 → t.out.y.toNat = s.inp.x.toNat + 6 * (s.inp.x.toNat / 10)) ∧
    (160 ≤ s.inp.x.toNat → t.out.y.toNat + 256 = s.inp.x.toNat + 6 * (s.inp.x.toNat / 10)) ∧
    t.out.y.toNat % 16 = s.inp.x.toNat % 10) ∧
  (∀ s s' : State, ∃ t t', exec .bcdEnc s = .next t ∧ exec .bcdEnc s' = .next t' ∧
    (s.inp.x.toNat < s'.inp.x.toNat → s'.inp.x.toNat ≤ 159 → t.out.y.toNat < t'.out.y.toNat) ∧
    (s'.inp.x.toNat = s.inp.x.toNat + 160 → t.out.y = t'.out.y))

/-- BCD.DEC of a BCD.ENC result is the operand up to 159 (the source states it for 0 to 99) and the operand less 160 from 160 on; BCD.ENC of a BCD.DEC result is the byte exactly when
its low nibble is at most 9 (40, section 3). From 160 on this rests on the spec's decision D8 (log entry 11). -/
def Obligations.BcdRoundTrips : Prop :=
  ∀ s : State,
    (∃ t u, exec .bcdEnc s = .next t ∧ exec .bcdDec { t with inp := { t.inp with x := t.out.y } } = .next u ∧
      (s.inp.x.toNat ≤ 159 → u.out.y = s.inp.x) ∧ (160 ≤ s.inp.x.toNat → u.out.y.toNat + 160 = s.inp.x.toNat)) ∧
    (∃ t u, exec .bcdDec s = .next t ∧ exec .bcdEnc { t with inp := { t.inp with x := t.out.y } } = .next u ∧
      (u.out.y = s.inp.x ↔ s.inp.x.toNat % 16 ≤ 9))

/-- Within the contract range 0 to 99 a BCD.ENC result is a valid BCD byte, and a valid BCD byte decodes into the contract range and is encoded back (40, sections 2 and 3; 70,
section 3). -/
def Obligations.BcdContractRange : Prop :=
  (∀ s : State, BcdContract s.inp.x → ∃ t u, exec .bcdEnc s = .next t ∧ ValidBcd t.out.y ∧
    exec .bcdDec { t with inp := { t.inp with x := t.out.y } } = .next u ∧ u.out.y = s.inp.x) ∧
  (∀ s : State, ValidBcd s.inp.x → ∃ t u, exec .bcdDec s = .next t ∧ BcdContract t.out.y ∧
    exec .bcdEnc { t with inp := { t.inp with x := t.out.y } } = .next u ∧ u.out.y = s.inp.x) ∧
  ((List.range 256).filter fun n => decide (n / 16 ≤ 9 ∧ n % 16 ≤ 9)).length = 100

/-- A year reduced by the host to its last two digits is encoded to a valid BCD byte and comes back as those two digits, whatever the year (40, section 3; 70, section 3). -/
def Obligations.YearComesBackModuloHundred : Prop :=
  ∀ (s : State) (year : Nat), ∃ t u,
    exec .bcdEnc { s with inp := { s.inp with x := yearOperand year } } = .next t ∧ ValidBcd t.out.y ∧
    exec .bcdDec { t with inp := { t.inp with x := t.out.y } } = .next u ∧ u.out.y.toNat = year % 100

/-- Bit 7 of a BCD.ENC result is clear for 0 to 79 and set for 80 to 99; bits 7:6 are clear for 0 to 39 (40, section 3, the corrected property of conflict C2). -/
def Obligations.BcdEncBitIsolation : Prop :=
  ∀ s : State, ∃ t, exec .bcdEnc s = .next t ∧
    (s.inp.x.toNat ≤ 79 → t.out.y.getLsbD 7 = false) ∧
    (80 ≤ s.inp.x.toNat → s.inp.x.toNat ≤ 99 → t.out.y.getLsbD 7 = true) ∧
    (s.inp.x.toNat ≤ 39 → t.out.y.getLsbD 7 = false ∧ t.out.y.getLsbD 6 = false)

/-- Inside ALM.PACK the 8-bit encode and the unbounded one agree for every operand: the field mask removes what the truncation removes (40, section 3). -/
def Obligations.FieldMaskHidesTruncation : Prop :=
  ∀ (f : RegisterField) (v : Nat), bcdEncUnbounded v &&& (fieldMask f).toNat = (bcdEnc v &&& fieldMask f).toNat

/-- The mask table and its reverse are inverse to each other on the six match types, and every valid mask is a chain: M1 implies M2 implies M3 implies M4, and DY only when all four are
0 (41, section 4). -/
def Obligations.MaskTablesAreInverse : Prop :=
  (∀ (t : MatchType) (m : Mask), mtMask t = some m ↔ mtOf m = t ∧ t ≠ .invalid) ∧
  (∀ m : Mask, mtOf m ≠ .invalid →
    (m.getLsbD 4 = true → m.getLsbD 3 = true) ∧ (m.getLsbD 3 = true → m.getLsbD 2 = true) ∧
    (m.getLsbD 2 = true → m.getLsbD 1 = true) ∧ (m.getLsbD 0 = true → m = 0x01#5)) ∧
  ∀ m : Mask, mtOf m ≠ .reserved

/-- R117: M4 = 1, M3 = 0, M2 = 1 and M1 = 0 decode to Invalid, whatever DY and the field bits are; with ALM.UNPACK the field values are still those of the bytes. -/
def Obligations.UnlistedCombinationIsInvalid : Prop :=
  ∀ s : State, s.inp.rDay.getLsbD 7 = true → s.inp.rHour.getLsbD 7 = false → s.inp.rMin.getLsbD 7 = true →
    s.inp.rSec.getLsbD 7 = false →
    ∃ t u, exec (.mtDec .alarm1) s = .next t ∧ t.out.mtOut = 7#3 ∧ t.out.err = 0#2 ∧
      exec (.almUnpack .alarm1) s = .next u ∧ u.out.mtOut = 7#3 ∧ u.out.err = 0#2 ∧
      u.out.vSec = fieldValue .seconds s.inp.rSec ∧ u.out.vMin = fieldValue .minutes s.inp.rMin ∧
      u.out.vHour = fieldValue .hours s.inp.rHour ∧ u.out.vDay = fieldValue .dayDate s.inp.rDay

/-- R147, for every operand and not only the source's: a match type legal for the alarm survives ALM.PACK and MT.DEC, and EverySecond on alarm 2 fails with InvalidMatchType. -/
def Obligations.MatchTypeSurvivesPacking : Prop :=
  (∀ (s : State) (a : Alarm) (t : MatchType), t.legalFor a = true → ∃ u v,
    exec (.almPack a t) s = .next u ∧
    exec (.mtDec a) { u with inp := u.inp.presentPacked u.out } = .next v ∧ v.out.mtOut = t.code ∧ v.out.err = 0#2) ∧
  (∀ s : State, ∃ u, exec (.almPack .alarm2 .everySecond) s = .next u ∧ u.out.err = 1#2 ∧ u.out.errVal = 0#3)

/-- Unpack after pack, for every operand: the match type comes back intact, a day or hour with its tens digit reduced modulo 4, a minute or second with its tens digit reduced modulo
8 (42, sections 1 and 3). -/
def Obligations.UnpackAfterPack : Prop :=
  ∀ (s : State) (a : Alarm) (t : MatchType), t.legalFor a = true → ∃ u v,
    exec (.almPack a t) s = .next u ∧
    exec (.almUnpack a) { u with inp := u.inp.presentPacked u.out } = .next v ∧
    v.out.mtOut = t.code ∧
    v.out.vDay.toNat = 10 * (s.inp.dDay.toNat / 10 % 4) + s.inp.dDay.toNat % 10 ∧
    v.out.vHour.toNat = 10 * (s.inp.dHour.toNat / 10 % 4) + s.inp.dHour.toNat % 10 ∧
    v.out.vMin.toNat = 10 * (s.inp.dMin.toNat / 10 % 8) + s.inp.dMin.toNat % 10 ∧
    (a = .alarm1 → v.out.vSec.toNat = 10 * (s.inp.dSec.toNat / 10 % 8) + s.inp.dSec.toNat % 10)

/-- Unpack after pack on a lossless operand set, which every operand set within the chip's ranges is: everything comes back (42, section 3; 70, section 3). -/
def Obligations.LosslessAlarmComesBack : Prop :=
  (∀ (a : Alarm) (t : MatchType) (p : Inputs), ChipRange a t p → Lossless a p) ∧
  (∀ (s : State) (a : Alarm) (t : MatchType), t.legalFor a = true → Lossless a s.inp → ∃ u v,
    exec (.almPack a t) s = .next u ∧
    exec (.almUnpack a) { u with inp := u.inp.presentPacked u.out } = .next v ∧
    v.out.mtOut = t.code ∧ v.out.vDay = s.inp.dDay ∧ v.out.vHour = s.inp.dHour ∧ v.out.vMin = s.inp.dMin ∧
    (a = .alarm1 → v.out.vSec = s.inp.dSec ∧ v.out.secPresent = 1#1) ∧ (a = .alarm2 → v.out.secPresent = 0#1))

/-- Pack after unpack: when the control bits are a valid mask, the bytes come back exactly if every field's low nibble is at most 9 and bit 6 of the hours byte is 0; when they are not, re-packing
raises InvalidMatchType(7) (42, section 3; 70, section 3). -/
def Obligations.PackAfterUnpack : Prop :=
  ∀ (s : State) (a : Alarm), ∃ u v, exec (.almUnpack a) s = .next u ∧
    exec (.almPack a (MatchType.ofCode u.out.mtOut)) { u with inp := u.inp.presentUnpacked u.out } = .next v ∧
    (u.out.mtOut = 7#3 → v.out.err = 1#2 ∧ v.out.errVal = 7#3) ∧
    (u.out.mtOut ≠ 7#3 → v.out.err = 0#2 ∧
      ((v.out.qDay = s.inp.rDay ∧ v.out.qHour = s.inp.rHour ∧ v.out.qMin = s.inp.rMin ∧
          (a = .alarm1 → v.out.qSec = s.inp.rSec)) ↔
        (s.inp.rDay.toNat % 16 ≤ 9 ∧ s.inp.rHour.toNat % 16 ≤ 9 ∧ s.inp.rMin.toNat % 16 ≤ 9 ∧
          (a = .alarm1 → s.inp.rSec.toNat % 16 ≤ 9) ∧ s.inp.rHour.getLsbD 6 = false)))

/-- Alarm 1's bytes decoded as alarm 2's lose M1 silently: a stored EverySecond is reported as EveryMinute (70, section 3). -/
def Obligations.WrongAlarmSelectLosesM1 : Prop :=
  ∀ s : State, ∃ u v, exec (.almPack .alarm1 .everySecond) s = .next u ∧
    exec (.mtDec .alarm2) { u with inp := u.inp.presentPacked u.out } = .next v ∧ v.out.mtOut = 1#3 ∧ v.out.err = 0#2

/-! ### Invariants -/

/-- The start meets the invariant, its outputs are those of its inputs, no exception is shown and no chip register is known. The port values at the start are the model's choice (log
entries 2 and 3). -/
def Obligations.ResetMeetsTheInvariant : Prop :=
  State.reset.Inv ∧ State.reset.Settled ∧ State.reset.out.err = 0#2 ∧ State.reset.chip = []

/-- Every evaluation, from whatever outputs, keeps the invariant and leaves the outputs settled (10, section 1; 60, section 1; 30, section 3). -/
def Obligations.StepKeepsTheInvariant : Prop :=
  ∀ s : State, s.Inv → ∃ t, step s = .next t ∧ t.Inv ∧ t.Settled

/-- Every host action that completes keeps the invariant and leaves the outputs settled, the failed transfer included. The canonical form of the chip's registers in it is
the model's (log entry 4). -/
def Obligations.HostActionKeepsTheInvariant : Prop :=
  ∀ (a : HostAction) (s t : State), s.Inv → hostStep a s = .next t → t.Inv ∧ t.Settled

/-- Every state a host program ends in meets the invariant and is settled, by whatever program, from whatever state that does (95, section 4; 10, section 1; transfers by the ideal
transport of 20, section 4, D18, log entry 5). The canonical form of the chip's registers in the invariant is the model's (log entry 4, DESIGN CHOICE). -/
def Obligations.HostProgramKeepsTheInvariant : Prop :=
  ∀ (prog : HostProgram) (s t : State), s.Inv → s.Settled → runHost prog s = .next t → t.Inv ∧ t.Settled

/-! ### The chip's registers and the host level -/

/-- A successful transfer to a listed address stores the byte and changes nothing else; a failed one may leave any byte there and changes nothing else but the model's counter; an address
outside the map is refused (20, sections 1 and 4, the spec's idealisation D18; 93 U9; log entries 5, 6 and 7). -/
def Obligations.TransferTouchesOneRegister : Prop :=
  (∀ (s : State) (a v : Byte) (r : Transfer), a.toNat < 16 → ∃ t, writeRegister a v r s = .next t ∧
    (r = .success → readRegister a t = .ok v ∧ t.freeIndex = s.freeIndex) ∧
    (∀ b : Byte, b ≠ a → readRegister b t = readRegister b s) ∧ t.inp = s.inp ∧ t.out = s.out) ∧
  (∀ (s : State) (a v : Byte) (r : Transfer), 16 ≤ a.toNat →
    writeRegister a v r s = .refused .unlistedChipAddress ∧ readRegister a s = .error .unlistedChipAddress)

/-- A host action that uses a data output of an operation whose `err` is not 0, or an output that carries no result, is a host fault, and nothing reaches the chip (60, section 5, the
spec's decision D21; 10, section 2; log entries 8 and 9). The last clause is 70, section 3's own example: `mt_out` after an operation that does not write it. -/
def Obligations.FailedResultIsNeverUsed : Prop :=
  ∀ (s t : State) (q : OutPort) (a : Byte) (r : Transfer) (d : DataPort), step s = .next t →
    (t.out.err ≠ 0#2 →
      hostStep (.storeResult q a r) s = .fault .failedResultUsed ∧
      hostStep (.feedBack q d) s = .fault .failedResultUsed ∧
      hostStep .feedMatchType s = .fault .failedResultUsed) ∧
    (t.out.err = 0#2 → carriesResult (decodeCommand s.inp.command) q = false →
      hostStep (.storeResult q a r) s = .fault .meaninglessOutputUsed ∧
      hostStep (.feedBack q d) s = .fault .meaninglessOutputUsed) ∧
    (t.out.err = 0#2 → carriesResult (decodeCommand s.inp.command) .mtOut = false →
      hostStep .feedMatchType s = .fault .meaninglessOutputUsed)

/-- Writing a packed alarm to the chip, one transfer a byte: each register of the set holds its byte, every other register is as it was, the inputs are as they were (20, section 2, under the
ideal transport of D18; log entry 5). -/
def Obligations.StoredAlarmSetReachesItsRegisters : Prop :=
  ∀ (s : State) (a : Alarm) (mt : MatchType), decodeCommand s.inp.command = .almPack a mt → mt.legalFor a = true →
    ∃ t u, exec (.almPack a mt) s = .next u ∧ runHost (storeAlarmSet a) s = .next t ∧ t.out = u.out ∧ t.inp = s.inp ∧
      (∀ p ∈ alarmSet a, readRegister p.2 t = .ok (u.out.read p.1.outPort)) ∧
      (∀ b : Byte, b ∉ (alarmSet a).map (·.2) → readRegister b t = readRegister b s)

/-- Storing an ALM.PACK result is a safe host run exactly when the match type is legal for the alarm; otherwise it stops at once with the host fault and writes nothing (60, section 5; 70,
section 3, the spec's decision D21; log entry 8). -/
def Obligations.StoringAPackIsSafeExactlyWhenLegal : Prop :=
  ∀ (s : State) (a : Alarm) (mt : MatchType), decodeCommand s.inp.command = .almPack a mt →
    (SafeHostRun (storeAlarmSet a) s ↔ mt.legalFor a = true) ∧
    (mt.legalFor a = false → runHost (storeAlarmSet a) s = .fault .failedResultUsed)

/-- Reading an alarm's registers presents each byte on its port, and leaves the control ports and the other data ports as they were (20, section 2). That it leaves the chip
as it was, a read having no side effect, is the ideal transport of 20, section 4 (the spec's decision D18, the model's choice of log entry 5; of the chip itself it is
not known). A byte nothing has written is the free value of log entry 4. -/
def Obligations.LoadedAlarmSetReachesItsPorts : Prop :=
  ∀ (s : State) (a : Alarm), ∃ t, runHost (loadAlarmSet a) s = .next t ∧
    (∀ p ∈ alarmSet a, readRegister p.2 s = .ok (t.inp.read p.1.inPort)) ∧
    (∀ d : DataPort, d ∉ (alarmSet a).map (fun p => p.1.inPort) → t.inp.read d = s.inp.read d) ∧
    t.inp.command = s.inp.command ∧ t.chip = s.chip ∧ t.freeIndex = s.freeIndex

/-- An alarm packed, written to the chip, read back and unpacked is the alarm: match type and fields, for a lossless operand set (20, section 2; 42, section 3; under the ideal transport of
D18, log entry 5). -/
def Obligations.AlarmSurvivesTheChip : Prop :=
  ∀ (s : State) (a : Alarm) (mt : MatchType), decodeCommand s.inp.command = .almPack a mt → mt.legalFor a = true →
    Lossless a s.inp →
    ∃ t u v, runHost (storeAlarmSet a) s = .next t ∧ runHost (loadAlarmSet a) t = .next u ∧
      exec (.almUnpack a) u = .next v ∧
      v.out.mtOut = mt.code ∧ v.out.vDay = s.inp.dDay ∧ v.out.vHour = s.inp.dHour ∧ v.out.vMin = s.inp.dMin ∧
      (a = .alarm1 → v.out.vSec = s.inp.dSec)

/-- An output that carries the result of a successful operation is used as it stands: stored, it is the byte `writeRegister` is given; presented again, it is the value on the
one port it is presented on, and the operation on the ports is evaluated with it (20, section 2; 60, section 5; 95, section 4). -/
def Obligations.AllowedResultIsUsedAsItStands : Prop :=
  (∀ (s t : State) (q : OutPort) (a : Byte) (r : Transfer) (d : DataPort), step s = .next t → t.out.err = 0#2 →
    carriesResult (decodeCommand s.inp.command) q = true →
    hostStep (.storeResult q a r) s = writeRegister a (t.out.read q) r t ∧
    hostStep (.feedBack q d) s = step { t with inp := t.inp.drive d (t.out.read q) } ∧
    (q = .mtOut → hostStep .feedMatchType s = step { t with inp := { t.inp with mt := t.out.mtOut } })) ∧
  (∀ (p : Inputs) (d : DataPort) (v : Byte), (p.drive d v).read d = v ∧ (p.drive d v).command = p.command ∧
    ∀ e : DataPort, e ≠ d → (p.drive d v).read e = p.read e)

/-- In whatever order a host performs the transfers of an alarm set, it ends in the same state: reading always, writing a packed alarm whether its match type is legal or not. The
order "is not fixed by the source" (20, section 2), and the ascending one of `storeAlarmSet` and `loadAlarmSet` is the model's choice (log entry 22; under the ideal
transport of D18, log entry 5). -/
def Obligations.TransferOrderOfAnAlarmSetDoesNotMatter : Prop :=
  ∀ (s : State) (a : Alarm) (l : List (RegisterField × Byte)), l.Perm (alarmSet a) →
    runHost (loadRegisters l) s = runHost (loadAlarmSet a) s ∧
    ∀ mt, decodeCommand s.inp.command = .almPack a mt → runHost (storeRegisters l) s = runHost (storeAlarmSet a) s

/-- Read-modify-write: the alarm read from the chip is unpacked, one field is changed, and it is re-packed with the match type that was read. If the stored control bits were no valid
mask, the re-packing raises InvalidMatchType(7) and storing stops with the host fault; if they were, it succeeds and can be stored; with a match type legal for the alarm it
succeeds in any case (70, section 3; 95, section 4, program 3; the host fault: the spec's decision D21, log entry 8; the chip as it was: D18, log entry 5). -/
def Obligations.InvalidAlarmCannotBeWrittenBack : Prop :=
  ∀ (s : State) (a : Alarm) (f : RegisterField) (v : Byte), ∃ u w,
    runHost (.sequence (readAlarmActions a) .done) s = .next u ∧ exec (.almUnpack a) u = .next u ∧
    (∀ p ∈ alarmSet a, readRegister p.2 s = .ok (u.inp.read p.1.inPort)) ∧
    runHost (modifyAlarm a f v) s = .next w ∧ exec (.almPack a (MatchType.ofCode u.out.mtOut)) w = .next w ∧
    w.inp.command = (0b100#3 ++ a.bit ++ u.out.mtOut : BitVec 7) ∧
    w.inp.read f.operandPort = v ∧
    (∀ p ∈ alarmSet a, p.1 ≠ f → w.inp.read p.1.operandPort = u.out.read p.1.valuePort) ∧
    w.chip = s.chip ∧ w.freeIndex = s.freeIndex ∧
    (u.out.mtOut = 7#3 →
      w.out.err = 1#2 ∧ w.out.errVal = 7#3 ∧ runHost (storeAlarmSet a) w = .fault .failedResultUsed) ∧
    (u.out.mtOut ≠ 7#3 → w.out.err = 0#2 ∧ SafeHostRun (storeAlarmSet a) w) ∧
    (∀ mt : MatchType, mt.legalFor a = true →
      ∃ x, hostStep (.setCommand (encode (.almPack a mt))) w = .next x ∧ x.out.err = 0#2 ∧ SafeHostRun (storeAlarmSet a) x)
end

