-- ==== Sys2Proof/Laws/State.lean ====
section
/-! SUPPORT. One lemma per field per update: of the state by an evaluation or a transfer, and of the input ports by the operations that drive
them. No later proof unfolds a record update. -/

namespace Sys2Proof.Laws

open Sys2Proof Sys2Proof.Machine

variable (s : State) (p : Inputs) (o : Outputs) (m : Memory) (n : Nat) (cw : CommandWord) (d e : DataPort) (v : Byte)

@[simp] theorem withOut_inp : ({ s with out := o } : State).inp = s.inp := rfl
@[simp] theorem withOut_out : ({ s with out := o } : State).out = o := rfl
@[simp] theorem withOut_chip : ({ s with out := o } : State).chip = s.chip := rfl
@[simp] theorem withOut_freeIndex : ({ s with out := o } : State).freeIndex = s.freeIndex := rfl

@[simp] theorem withInp_inp : ({ s with inp := p } : State).inp = p := rfl
@[simp] theorem withInp_out : ({ s with inp := p } : State).out = s.out := rfl
@[simp] theorem withInp_chip : ({ s with inp := p } : State).chip = s.chip := rfl
@[simp] theorem withInp_freeIndex : ({ s with inp := p } : State).freeIndex = s.freeIndex := rfl

@[simp] theorem withChip_inp : ({ s with chip := m } : State).inp = s.inp := rfl
@[simp] theorem withChip_out : ({ s with chip := m } : State).out = s.out := rfl
@[simp] theorem withChip_chip : ({ s with chip := m } : State).chip = m := rfl
@[simp] theorem withChip_freeIndex : ({ s with chip := m } : State).freeIndex = s.freeIndex := rfl

@[simp] theorem withFreeIndex_inp : ({ s with freeIndex := n } : State).inp = s.inp := rfl
@[simp] theorem withFreeIndex_out : ({ s with freeIndex := n } : State).out = s.out := rfl
@[simp] theorem withFreeIndex_chip : ({ s with freeIndex := n } : State).chip = s.chip := rfl
@[simp] theorem withFreeIndex_freeIndex : ({ s with freeIndex := n } : State).freeIndex = n := rfl

/-! ### The input ports -/

@[simp] theorem withCommand_op : (p.withCommand cw).op = opField cw := rfl
@[simp] theorem withCommand_alm : (p.withCommand cw).alm = almField cw := rfl
@[simp] theorem withCommand_mt : (p.withCommand cw).mt = mtField cw := rfl

/-- Driving the control ports leaves every data port as it was. -/
@[simp] theorem withCommand_read : (p.withCommand cw).read d = p.read d := by cases d <;> rfl

/-- The command word driven on the control ports is the one read from them (R60). -/
@[simp] theorem withCommand_command : (p.withCommand cw).command = cw := by
  simp only [Inputs.command, withCommand_op, withCommand_alm, withCommand_mt, joinFields, opField, almField, mtField]
  revert cw; decide

/-- A driven data port holds the value. -/
@[simp] theorem drive_read_same : (p.drive d v).read d = v := by cases d <;> rfl

/-- Driving one data port leaves the others as they were. -/
theorem drive_read_ne (h : e ≠ d) : (p.drive d v).read e = p.read e := by
  cases d <;> cases e <;> first | rfl | exact absurd rfl h

/-- Driving a data port leaves the command word as it was. -/
@[simp] theorem drive_command : (p.drive d v).command = p.command := by cases d <;> rfl

/-! ### The idle outputs -/

@[simp] theorem idle_y : Outputs.idle.y = 0 := rfl
@[simp] theorem idle_qSec : Outputs.idle.qSec = 0 := rfl
@[simp] theorem idle_qMin : Outputs.idle.qMin = 0 := rfl
@[simp] theorem idle_qHour : Outputs.idle.qHour = 0 := rfl
@[simp] theorem idle_qDay : Outputs.idle.qDay = 0 := rfl
@[simp] theorem idle_vSec : Outputs.idle.vSec = 0 := rfl
@[simp] theorem idle_vMin : Outputs.idle.vMin = 0 := rfl
@[simp] theorem idle_vHour : Outputs.idle.vHour = 0 := rfl
@[simp] theorem idle_vDay : Outputs.idle.vDay = 0 := rfl
@[simp] theorem idle_secPresent : Outputs.idle.secPresent = 0 := rfl
@[simp] theorem idle_mtOut : Outputs.idle.mtOut = 0 := rfl
@[simp] theorem idle_err : Outputs.idle.err = 0 := rfl
@[simp] theorem idle_errVal : Outputs.idle.errVal = 0 := rfl

/-- Every idle data output reads 0. -/
@[simp] theorem idle_read (q : OutPort) : Outputs.idle.read q = 0 := by cases q <;> rfl

end Sys2Proof.Laws
end

