-- ==== Sys2Proof/Laws/Exec.lean ====
section
/-! SUPPORT. Everything an operation can do, said once: it drives the outputs with a function of the input ports and changes nothing else. The validation of
MT.ENC and ALM.PACK, and the legality of the outputs each operation drives. -/

namespace Sys2Proof.Laws

open Sys2Proof Sys2Proof.Machine

/-- `raise` drives the error outputs over idle ones. -/
theorem raise_next (e : Exception) (s : State) :
    raise e s = .next { s with out := { Outputs.idle with err := e.err, errVal := e.errVal } } := rfl

/-- The validation, by the columns of R65: a legal match type has its mask. -/
theorem checkedMask_legal {a : Alarm} {t : MatchType} (h : t.legalFor a = true) :
    ∃ m, mtMask t = some m ∧ checkedMask a t = .ok m := by
  revert h; cases a <;> cases t <;> simp [MatchType.legalFor, checkedMask, mtMask]

/-- The validation, by the columns of R65: any other match type raises InvalidMatchType. -/
theorem checkedMask_illegal {a : Alarm} {t : MatchType} (h : t.legalFor a = false) :
    checkedMask a t = .error (.invalidMatchType t) := by
  revert h; cases a <;> cases t <;> simp [MatchType.legalFor, checkedMask, mtMask]

/-- The two spellings of the refused inputs (R65, R161). -/
theorem legalFor_eq_false_iff {a : Alarm} {t : MatchType} :
    t.legalFor a = false ↔ t = .reserved ∨ t = .invalid ∨ (t = .everySecond ∧ a = .alarm2) := by
  cases a <;> cases t <;> simp [MatchType.legalFor]

/-- A match type with a mask is legal, but EverySecond on alarm 2. -/
theorem checkedMask_of_mtMask {a : Alarm} {t : MatchType} {m : Mask} (h : mtMask t = some m)
    (h' : ¬ (t = .everySecond ∧ a = .alarm2)) : checkedMask a t = .ok m := by
  simp [checkedMask, h, h']

/-- No mask decodes to the code without a name (R65, R114). -/
theorem code_mtOf_ne_six (m : Mask) : (mtOf m).code ≠ 6#3 := by revert m; decide

/-- The outputs of a success are legal when `mt_out` is not 6. -/
theorem outputsLegal_success {o : Outputs} (he : o.err = 0) (hv : o.errVal = 0) (hm : o.mtOut ≠ 6#3) : OutputsLegal o := by
  simp [OutputsLegal, he, hv, hm]

/-- The outputs of InvalidMatchType are legal. -/
theorem outputsLegal_invalidMatchType {a : Alarm} {t : MatchType} (h : t.legalFor a = false) :
    OutputsLegal { Outputs.idle with err := 1, errVal := t.code } := by
  refine ⟨by simp, by simp, fun h => absurd rfl h, fun _ => ?_, fun _ q => by cases q <;> rfl⟩
  revert h; cases a <;> cases t <;> simp [MatchType.legalFor, MatchType.code]

/-- The outputs of IllegalOperation are legal. -/
theorem outputsLegal_illegalOperation : OutputsLegal { Outputs.idle with err := 2, errVal := 0 } :=
  ⟨by decide, by decide, fun _ => rfl, fun h => absurd h (by decide), fun _ q => by cases q <;> rfl⟩

/-- An operation is a function of the input ports that drives the outputs (R20, R40). -/
theorem exec_outputs (i : Instr) (p : Inputs) :
    ∃ o : Outputs, OutputsLegal o ∧ ∀ s : State, s.inp = p → exec i s = .next { s with out := o } := by
  cases i with
  | bcdDec =>
    exact ⟨{ Outputs.idle with y := BitVec.ofNat 8 (bcdDec p.x) }, outputsLegal_success rfl rfl (by simp),
      fun s h => by subst h; rfl⟩
  | bcdEnc =>
    exact ⟨{ Outputs.idle with y := bcdEnc p.x.toNat }, outputsLegal_success rfl rfl (by simp), fun s h => by subst h; rfl⟩
  | mtDec a =>
    exact ⟨{ Outputs.idle with mtOut := (mtOf (controlMask a p)).code }, outputsLegal_success rfl rfl (code_mtOf_ne_six _),
      fun s h => by subst h; rfl⟩
  | almUnpack a =>
    exact ⟨unpacked a p, outputsLegal_success rfl rfl (code_mtOf_ne_six _), fun s h => by subst h; rfl⟩
  | mtEnc a t =>
    cases h : t.legalFor a with
    | true =>
      obtain ⟨m, -, hm⟩ := checkedMask_legal h
      exact ⟨{ Outputs.idle with y := m.setWidth 8 }, outputsLegal_success rfl rfl (by simp),
        fun s _ => by simp only [exec, execMtEnc, hm]; rfl⟩
    | false =>
      exact ⟨_, outputsLegal_invalidMatchType h, fun s _ => by simp only [exec, execMtEnc, checkedMask_illegal h]; rfl⟩
  | almPack a t =>
    cases h : t.legalFor a with
    | true =>
      obtain ⟨m, -, hm⟩ := checkedMask_legal h
      exact ⟨packed a m p, outputsLegal_success rfl rfl (by simp [packed]),
        fun s h => by subst h; simp only [exec, execAlmPack, hm]; rfl⟩
    | false =>
      exact ⟨_, outputsLegal_invalidMatchType h, fun s _ => by simp only [exec, execAlmPack, checkedMask_illegal h]; rfl⟩
  | reserved6 => exact ⟨_, outputsLegal_illegalOperation, fun s _ => rfl⟩
  | reserved7 => exact ⟨_, outputsLegal_illegalOperation, fun s _ => rfl⟩

/-- The three outcomes of an operation (R160, R161, R162). -/
theorem exec_outcome (i : Instr) (s : State) : ∃ t, exec i s = .next t ∧
    ((i.legal = true ∧ t.out.err = 0 ∧ t.out.errVal = 0) ∨
     (∃ a mt, (i = .mtEnc a mt ∨ i = .almPack a mt) ∧ mt.legalFor a = false ∧
        t.out = { Outputs.idle with err := 1, errVal := mt.code }) ∨
     ((i = .reserved6 ∨ i = .reserved7) ∧ t.out = { Outputs.idle with err := 2 })) := by
  cases i with
  | mtEnc a t =>
    cases h : t.legalFor a with
    | true =>
      obtain ⟨m, -, hm⟩ := checkedMask_legal h
      exact ⟨_, by simp only [exec, execMtEnc, hm]; rfl, .inl ⟨h, rfl, rfl⟩⟩
    | false =>
      exact ⟨_, by simp only [exec, execMtEnc, checkedMask_illegal h]; rfl, .inr (.inl ⟨a, t, .inl rfl, h, rfl⟩)⟩
  | almPack a t =>
    cases h : t.legalFor a with
    | true =>
      obtain ⟨m, -, hm⟩ := checkedMask_legal h
      exact ⟨_, by simp only [exec, execAlmPack, hm]; rfl, .inl ⟨h, rfl, rfl⟩⟩
    | false =>
      exact ⟨_, by simp only [exec, execAlmPack, checkedMask_illegal h]; rfl, .inr (.inl ⟨a, t, .inr rfl, h, rfl⟩)⟩
  | reserved6 => exact ⟨_, rfl, .inr (.inr ⟨.inl rfl, rfl⟩)⟩
  | reserved7 => exact ⟨_, rfl, .inr (.inr ⟨.inr rfl, rfl⟩)⟩
  | bcdDec => exact ⟨_, rfl, .inl ⟨rfl, rfl, rfl⟩⟩
  | bcdEnc => exact ⟨_, rfl, .inl ⟨rfl, rfl, rfl⟩⟩
  | mtDec a => exact ⟨_, rfl, .inl ⟨rfl, rfl, rfl⟩⟩
  | almUnpack a => exact ⟨_, rfl, .inl ⟨rfl, rfl, rfl⟩⟩

/-- Everything one operation can do to a state. -/
theorem exec_next {i : Instr} {s t : State} (h : exec i s = .next t) : OutputsLegal t.out ∧ t = { s with out := t.out } := by
  obtain ⟨o, ho, hs⟩ := exec_outputs i s.inp
  rw [hs s rfl] at h
  cases h
  exact ⟨ho, rfl⟩

/-- Everything one evaluation can do to a state: it never stops, drives legal outputs, and evaluating again changes nothing. -/
theorem step_next (s : State) : ∃ o, step s = .next { s with out := o } ∧ OutputsLegal o ∧
    step { s with out := o } = .next { s with out := o } := by
  obtain ⟨o, ho, hs⟩ := exec_outputs (decodeCommand s.inp.command) s.inp
  exact ⟨o, hs s rfl, ho, hs { s with out := o } rfl⟩

end Sys2Proof.Laws
end

