-- ==== Sys2Proof/Laws/Codec.lean ====
section
/-! SUPPORT. The BCD functions, the register-byte formats and the mask table: what one is after the other. A fact over all 256 bytes or all 32
masks is decided; everything above is assembled from these. -/

namespace Sys2Proof.Laws

open Sys2Proof Sys2Proof.Machine

/-! ### BCD -/

set_option maxRecDepth 4000 in
/-- The closed form of BCD.DEC (R94). -/
theorem bcdDec_closed (b : Byte) : bcdDec b = b.toNat - 6 * (b.toNat / 16) ∧ bcdDec b ≤ 165 := by revert b; decide

set_option maxRecDepth 4000 in
/-- The closed form of BCD.ENC up to 159 and beyond (R94). -/
theorem bcdEnc_closed (v : Byte) :
    (bcdEnc v.toNat).toNat = if v.toNat ≤ 159 then v.toNat + 6 * (v.toNat / 10) else v.toNat + 6 * (v.toNat / 10) - 256 := by
  revert v; decide

set_option maxRecDepth 4000 in
/-- BCD.DEC after BCD.ENC (R95). -/
theorem bcdDec_bcdEnc (v : Byte) : bcdDec (bcdEnc v.toNat) = if v.toNat ≤ 159 then v.toNat else v.toNat - 160 := by
  revert v; decide

set_option maxRecDepth 4000 in
/-- BCD.ENC after BCD.DEC (R95). -/
theorem bcdEnc_bcdDec (b : Byte) : bcdEnc (bcdDec b) = b ↔ b.toNat % 16 ≤ 9 := by revert b; decide

/-! ### Register bytes -/

/-- The control bits lie outside the field-value bits. -/
theorem controlBits_and_fieldMask (f : RegisterField) (m : Mask) : controlBits f m &&& fieldMask f = 0 := by
  revert m; cases f <;> decide

/-- The field-value bits of a packed byte are those of the BCD byte, whatever the mask (R137). -/
theorem packByte_and_fieldMask (f : RegisterField) (m : Mask) (v : Byte) :
    packByte f m v &&& fieldMask f = bcdEnc v.toNat &&& fieldMask f := by
  simp [packByte, BitVec.and_or_distrib_right, controlBits_and_fieldMask, BitVec.and_assoc]

/-- How many values the tens digit of a field has: 8 in 7 bits, 4 in 6 bits (R137). -/
def tensModulus : RegisterField → Nat
  | .seconds => 8
  | .minutes => 8
  | .hours => 4
  | .dayDate => 4

set_option maxRecDepth 4000 in
/-- A field value comes back with its tens digit reduced modulo 8 or 4 (R137). -/
theorem fieldValue_packByte (f : RegisterField) (m : Mask) (v : Byte) :
    (fieldValue f (packByte f m v)).toNat = 10 * (v.toNat / 10 % tensModulus f) + v.toNat % 10 := by
  rw [fieldValue, packByte_and_fieldMask]
  revert v; cases f <;> decide

set_option maxRecDepth 4000 in
/-- The tens and the ones digit of a field value (R27 to R30, R141). -/
theorem fieldValue_digits (f : RegisterField) (b : Byte) :
    (fieldValue f b).toNat = 10 * (b.toNat / 16 % tensModulus f) + b.toNat % 16 := by
  revert b; cases f <;> decide

/-- Bit 7 of a packed byte is its control bit, whatever the operand (R132 to R135). -/
theorem packByte_bit7 (f : RegisterField) (m : Mask) (v : Byte) : (packByte f m v).getLsbD 7 = (controlBits f m).getLsbD 7 := by
  cases f <;> simp [packByte, fieldMask]

/-- Bit 6 of a packed hours or day/date byte is its control bit, whatever the operand (R132, R133). -/
theorem packByte_bit6 {f : RegisterField} (hf : fieldMask f = 0x3F#8) (m : Mask) (v : Byte) :
    (packByte f m v).getLsbD 6 = (controlBits f m).getLsbD 6 := by
  simp [packByte, hf]

/-- Where each mask bit stands in the register bytes (R111). -/
theorem controlBits_bits (m : Mask) :
    (controlBits .seconds m).getLsbD 7 = m.getLsbD 4 ∧ (controlBits .minutes m).getLsbD 7 = m.getLsbD 3 ∧
    (controlBits .hours m).getLsbD 7 = m.getLsbD 2 ∧ (controlBits .hours m).getLsbD 6 = false ∧
    (controlBits .dayDate m).getLsbD 7 = m.getLsbD 1 ∧ (controlBits .dayDate m).getLsbD 6 = m.getLsbD 0 := by
  revert m; decide

/-- A field bit of a packed byte is that of the BCD byte, whatever the mask (R137). -/
theorem packByte_fieldBit {f : RegisterField} {i : Nat} (hi : (fieldMask f).getLsbD i = true) (m : Mask) (v : Byte) :
    (packByte f m v).getLsbD i = (bcdEnc v.toNat).getLsbD i := by
  have h := congrArg (fun b => BitVec.getLsbD b i) (packByte_and_fieldMask f m v)
  simpa [BitVec.getLsbD_and, hi] using h

/-! ### The mask tables -/

/-- Where MT.DEC takes each bit of the mask from, M1 apart (R116). -/
theorem maskBit_controlMask (a : Alarm) (p : Inputs) :
    maskBit (controlMask a p) 3 = p.rMin.extractLsb' 7 1 ∧ maskBit (controlMask a p) 2 = p.rHour.extractLsb' 7 1 ∧
    maskBit (controlMask a p) 1 = p.rDay.extractLsb' 7 1 ∧ maskBit (controlMask a p) 0 = p.rDay.extractLsb' 6 1 := by
  simp only [maskBit, controlMask]
  generalize BitVec.extractLsb' 7 1 p.rSec = m1
  generalize BitVec.extractLsb' 7 1 p.rMin = m2
  generalize BitVec.extractLsb' 7 1 p.rHour = m3
  generalize BitVec.extractLsb' 7 1 p.rDay = m4
  generalize BitVec.extractLsb' 6 1 p.rDay = dy
  revert m1 m2 m3 m4 dy; cases a <;> decide

/-- M1 comes from the seconds byte for alarm 1 and is 0 for alarm 2 (R116). -/
theorem maskBit_controlMask_m1 (a : Alarm) (p : Inputs) :
    maskBit (controlMask a p) 4 = match a with
      | .alarm1 => p.rSec.extractLsb' 7 1
      | .alarm2 => 0#1 := by
  simp only [maskBit, controlMask]
  generalize BitVec.extractLsb' 7 1 p.rSec = m1
  generalize BitVec.extractLsb' 7 1 p.rMin = m2
  generalize BitVec.extractLsb' 7 1 p.rHour = m3
  generalize BitVec.extractLsb' 7 1 p.rDay = m4
  generalize BitVec.extractLsb' 6 1 p.rDay = dy
  revert m1 m2 m3 m4 dy; cases a <;> decide

/-- The reverse table inverts the table (R118). -/
theorem mtOf_eq_iff (t : MatchType) (m : Mask) : mtMask t = some m ↔ mtOf m = t ∧ t ≠ .invalid := by
  revert m; cases t <;> decide

/-- A mask that comes from the table decodes to its match type (R118). -/
theorem mtOf_of_mtMask {t : MatchType} {m : Mask} (h : mtMask t = some m) : mtOf m = t := ((mtOf_eq_iff t m).1 h).1

/-- The control bits MT.DEC sees on packed bytes are the mask, for any match type legal for the alarm (R118, R147). -/
theorem controlMask_packed {a : Alarm} {t : MatchType} {m : Mask} (h : mtMask t = some m)
    (h' : ¬ (t = .everySecond ∧ a = .alarm2)) (p q : Inputs) :
    controlMask a (p.presentPacked (packed a m q)) = m := by
  have bit7 : ∀ (f : RegisterField) (v : Byte), (packByte f m v).extractLsb' 7 1 = (controlBits f m).extractLsb' 7 1 := by
    intro f v
    ext i hi
    obtain rfl : i = 0 := by omega
    cases f <;> simp [packByte, fieldMask]
  have bit6 : ∀ v : Byte, (packByte .dayDate m v).extractLsb' 6 1 = (controlBits .dayDate m).extractLsb' 6 1 := by
    intro v
    ext i hi
    obtain rfl : i = 0 := by omega
    simp [packByte, fieldMask]
  cases a
  · simp only [controlMask, Inputs.presentPacked, packed, bit7, bit6]
    clear * -
    revert m; decide
  · simp only [controlMask, Inputs.presentPacked, packed, bit7, bit6]
    have : t ≠ .everySecond := fun e => h' ⟨e, rfl⟩
    revert this h
    cases t <;> simp [mtMask] <;> (rintro rfl; decide)

/-- ALM.PACK with a legal match type drives the packed bytes (R130). -/
theorem exec_almPack {a : Alarm} {t : MatchType} {m : Mask} (hm : mtMask t = some m) (h : ¬ (t = .everySecond ∧ a = .alarm2))
    (s : State) : exec (.almPack a t) s = .next { s with out := packed a m s.inp } := by
  simp only [exec, execAlmPack, checkedMask_of_mtMask hm h]; rfl

end Sys2Proof.Laws
end

