-- ==== Sys2Proof/Laws/Encoding.lean ====
section
/-! SUPPORT. The fields of a command word and the codes: what is joined is read back, and every code is its own inverse. -/

namespace Sys2Proof.Laws

open Sys2Proof

@[simp] theorem opField_join (op : BitVec 3) (alm : BitVec 1) (mt : BitVec 3) : opField (joinFields op alm mt) = op := by
  revert op alm mt; decide

@[simp] theorem almField_join (op : BitVec 3) (alm : BitVec 1) (mt : BitVec 3) : almField (joinFields op alm mt) = alm := by
  revert op alm mt; decide

@[simp] theorem mtField_join (op : BitVec 3) (alm : BitVec 1) (mt : BitVec 3) : mtField (joinFields op alm mt) = mt := by
  revert op alm mt; decide

@[simp] theorem ofBit_bit (a : Alarm) : Alarm.ofBit a.bit = a := by cases a <;> rfl

@[simp] theorem bit_ofBit (b : BitVec 1) : (Alarm.ofBit b).bit = b := by revert b; decide

@[simp] theorem ofCode_code (t : MatchType) : MatchType.ofCode t.code = t := by cases t <;> rfl

@[simp] theorem code_ofCode (c : BitVec 3) : (MatchType.ofCode c).code = c := by revert c; decide

/-- A command byte has bit 7 clear and holds the command word in bits 6:0 (R60). -/
theorem decode_commandByte (cw : CommandWord) (rest : List Byte) :
    decode (commandByte cw :: rest) = .ok (decodeCommand cw, rest) := by
  have h : (commandByte cw).getLsbD 7 = false := by simp [commandByte]
  have h' : (commandByte cw).setWidth 7 = cw := by simp [commandByte]
  simp only [decode, h, h', Bool.false_eq_true, if_false]

end Sys2Proof.Laws
end

