-- ==== Sys2Proof/Laws/Memory.lean ====
section
/-! SUPPORT. The chip's register file: a read after a write to the same address gives the value written, a write leaves every other address
alone, and every operation keeps the canonical form. -/

namespace Sys2Proof.Laws

open Sys2Proof Sys2Proof.Machine

/-- What a store leaves at each address. -/
theorem lookup_store (m : Memory) (k j : Nat) (v : Byte) :
    Memory.lookup (Memory.store m k v) j = if j = k then some v else Memory.lookup m j := by
  induction m with
  | nil => simp [Memory.store, Memory.lookup, eq_comm]
  | cons p m ih =>
    obtain ⟨a, w⟩ := p
    simp only [Memory.store]
    split
    · simp [Memory.lookup, eq_comm]
    · split
      · rename_i hka
        subst hka
        by_cases h : j = k
        · simp [Memory.lookup, h]
        · simp [Memory.lookup, h, Ne.symm h]
      · simp only [Memory.lookup, ih]
        split <;> split <;> simp_all

/-- Stores at different addresses commute. -/
theorem store_comm {j k : Nat} (h : j ≠ k) (v w : Byte) (m : Memory) :
    Memory.store (Memory.store m j v) k w = Memory.store (Memory.store m k w) j v := by
  induction m with
  | nil => grind [Memory.store]
  | cons p m ih => grind [Memory.store]

/-- An entry after a store is the one stored or one that was there. -/
theorem mem_store {m : Memory} {k : Nat} {v : Byte} {p : Host.Cell} (h : p ∈ Memory.store m k v) : p = (k, v) ∨ p ∈ m := by
  induction m with
  | nil => simpa [Memory.store] using h
  | cons q m ih =>
    obtain ⟨a, w⟩ := q
    simp only [Memory.store] at h
    split at h
    · simpa using h
    · split at h
      · simp only [List.mem_cons] at h ⊢; tauto
      · simp only [List.mem_cons] at h ⊢
        rcases h with h | h
        · exact .inr (.inl h)
        · exact (ih h).imp id .inr

/-- A store keeps the canonical form when its address is in the map. -/
theorem store_wf {m : Memory} (hm : Memory.wf m) {k : Nat} (hk : k < 16) (v : Byte) : Memory.wf (Memory.store m k v) := by
  refine ⟨?_, fun p hp => (mem_store hp).elim (fun h => h ▸ hk) (hm.2 p)⟩
  have hs := hm.1
  clear hm
  induction m with
  | nil => simp [Memory.store]
  | cons q m ih =>
    obtain ⟨a, w⟩ := q
    obtain ⟨hq, ht⟩ := List.pairwise_cons.1 hs
    simp only [Memory.store]
    split
    · rename_i hlt
      exact List.pairwise_cons.2 ⟨fun p hp => (List.mem_cons.1 hp).elim (fun h => h ▸ hlt) (fun h => hlt.trans (hq p h)), hs⟩
    · split
      · rename_i heq
        exact List.pairwise_cons.2 ⟨fun p hp => heq ▸ hq p hp, ht⟩
      · exact List.pairwise_cons.2 ⟨fun p hp => (mem_store hp).elim (fun h => h ▸ by simp only; omega) (hq p), ih ht⟩

/-- Reading a listed address. -/
theorem readRegister_listed {a : Byte} (h : a.toNat < 16) (s : State) :
    readRegister a s = .ok ((Memory.lookup s.chip a.toNat).getD (Config.batteryBackedByte a.toNat)) := by
  simp [readRegister, listedAddress, h]

/-- Reading depends on the chip alone. -/
theorem readRegister_congr {s t : State} (h : t.chip = s.chip) (a : Byte) : readRegister a t = readRegister a s := by
  simp [readRegister, h]

/-- Everything a transfer to the chip can do: it stores one byte at a listed address, the one given on success. -/
theorem writeRegister_next {a v : Byte} {r : Transfer} {s t : State} (h : writeRegister a v r s = .next t) :
    a.toNat < 16 ∧ ∃ w n, t = { s with chip := Memory.store s.chip a.toNat w, freeIndex := n } ∧
      (r = .success → w = v ∧ n = s.freeIndex) := by
  unfold writeRegister at h
  split at h
  · rename_i ha
    refine ⟨by simpa [listedAddress] using ha, ?_⟩
    cases r with
    | success => exact ⟨v, s.freeIndex, by simpa using h.symm, fun _ => ⟨rfl, rfl⟩⟩
    | failure => exact ⟨_, _, by simpa using h.symm, fun h => by cases h⟩
  · cases h

/-- A transfer to a listed address completes. -/
theorem writeRegister_listed {a : Byte} (h : a.toNat < 16) (v : Byte) (r : Transfer) (s : State) :
    ∃ t, writeRegister a v r s = .next t := by
  cases r <;> simp [writeRegister, listedAddress, h]

/-- What each address reads as after a store in the chip. -/
theorem readRegister_store (s : State) (a b w : Byte) (n : Nat) (hb : b.toNat < 16) :
    readRegister b { s with chip := Memory.store s.chip a.toNat w, freeIndex := n } =
      if b = a then .ok w else readRegister b s := by
  simp only [readRegister_listed hb, lookup_store]
  by_cases h : b = a
  · simp [h]
  · simp [h, BitVec.toNat_inj]

end Sys2Proof.Laws
end

