-- ==== Sys2Proof/Laws/HostLevel.lean ====
section
/-! SUPPORT. What a host action can do, said once, and how each kind of action runs on a settled state. -/

namespace Sys2Proof.Laws

open Sys2Proof Sys2Proof.Machine

/-- An evaluation leaves the outputs settled and legal, and the inputs, the chip and the counter as they were. -/
theorem step_frame {s t : State} (h : step s = .next t) :
    t.Settled ∧ OutputsLegal t.out ∧ t.inp = s.inp ∧ t.chip = s.chip ∧ t.freeIndex = s.freeIndex := by
  obtain ⟨o, hs, ho, ht⟩ := step_next s
  rw [hs] at h
  cases h
  exact ⟨ht, ho, rfl, rfl, rfl⟩

/-- Settled outputs are those of the present inputs: two states with the same inputs, both settled, show the same outputs (R20). -/
theorem settled_out_eq {s t : State} (hs : s.Settled) (ht : t.Settled) (h : s.inp = t.inp) : s.out = t.out := by
  obtain ⟨o, -, ho⟩ := exec_outputs (decodeCommand s.inp.command) s.inp
  have h1 : step s = .next { s with out := o } := ho s rfl
  have h2 : step t = .next { t with out := o } := by
    have := ho t h.symm
    rwa [h] at this
  rw [State.Settled, h1] at hs
  rw [State.Settled, h2] at ht
  simp only [Host.Outcome.next.injEq] at hs ht
  rw [← hs, ← ht]

/-- A change of the chip or of the counter leaves settled outputs settled. -/
theorem settled_withChip {s : State} (h : s.Settled) (m : Memory) (n : Nat) : ({ s with chip := m, freeIndex := n } : State).Settled := by
  obtain ⟨o, -, ho⟩ := exec_outputs (decodeCommand s.inp.command) s.inp
  have h1 : step s = .next { s with out := o } := ho s rfl
  rw [State.Settled, h1] at h
  simp only [Host.Outcome.next.injEq] at h
  have h2 : step { s with chip := m, freeIndex := n } = _ := ho { s with chip := m, freeIndex := n } rfl
  rw [State.Settled, h2, ← h]

/-- Using an output runs the use on the evaluated state, when the operation succeeded and the output carries its result. -/
theorem useOutput_next {q : OutPort} {k : Byte → State → Host.Outcome State Fault Refusal} {s t : State}
    (h : useOutput q k s = .next t) :
    ∃ u, step s = .next u ∧ u.out.err = 0 ∧ carriesResult (decodeCommand u.inp.command) q = true ∧ k (u.out.read q) u = .next t := by
  obtain ⟨o, hs, -, -⟩ := step_next s
  refine ⟨_, hs, ?_⟩
  simp only [useOutput, hs] at h
  split at h
  · cases h
  · split at h
    · rename_i he hc
      exact ⟨by simpa using he, hc, h⟩
    · cases h

/-- On a settled state whose operation succeeded, an output that carries its result is used as it stands. -/
theorem useOutput_settled {q : OutPort} {k : Byte → State → Host.Outcome State Fault Refusal} {s : State} (hs : s.Settled)
    (he : s.out.err = 0) (hc : carriesResult (decodeCommand s.inp.command) q = true) :
    useOutput q k s = k (s.out.read q) s := by
  rw [State.Settled] at hs
  simp [useOutput, hs, he, hc]

/-- An output that carries no result is not used (R25, R196). -/
theorem useOutput_meaningless {q : OutPort} {k : Byte → State → Host.Outcome State Fault Refusal} {s t : State} (h : step s = .next t)
    (he : t.out.err = 0) (hc : carriesResult (decodeCommand s.inp.command) q = false) :
    useOutput q k s = .fault .meaninglessOutputUsed := by
  simp [useOutput, h, he, (step_frame h).2.2.1, hc]

/-- A data output of a failed operation is not used (R169). -/
theorem useOutput_failed {q : OutPort} {k : Byte → State → Host.Outcome State Fault Refusal} {s t : State} (h : step s = .next t)
    (he : t.out.err ≠ 0) : useOutput q k s = .fault .failedResultUsed := by
  simp only [useOutput, h]
  exact if_pos he

/-- An output that carries the result of a successful operation is used as it stands. -/
theorem useOutput_allowed {q : OutPort} {k : Byte → State → Host.Outcome State Fault Refusal} {s t : State} (h : step s = .next t)
    (he : t.out.err = 0) (hc : carriesResult (decodeCommand s.inp.command) q = true) : useOutput q k s = k (t.out.read q) t := by
  simp [useOutput, h, he, (step_frame h).2.2.1, hc]

/-- Everything a host action can do: it changes the inputs and evaluates, or it stores one byte in the chip and leaves the evaluated outputs. -/
theorem hostStep_next {a : HostAction} {s t : State} (h : hostStep a s = .next t) :
    (∃ u : State, u.chip = s.chip ∧ u.freeIndex = s.freeIndex ∧ step u = .next t) ∨
    (∃ (u : State) (b w : Byte) (n : Nat), step s = .next u ∧ b.toNat < 16 ∧
      t = { u with chip := Memory.store u.chip b.toNat w, freeIndex := n }) := by
  cases a with
  | present p => exact .inl ⟨{ s with inp := p }, rfl, rfl, h⟩
  | setCommand cw => exact .inl ⟨{ s with inp := s.inp.withCommand cw }, rfl, rfl, h⟩
  | selectOperation op => exact .inl ⟨{ s with inp := { s.inp with op := op } }, rfl, rfl, h⟩
  | setData d v => exact .inl ⟨{ s with inp := s.inp.drive d v }, rfl, rfl, h⟩
  | fetchRegister d b =>
    simp only [hostStep] at h
    split at h
    · rename_i v _
      exact .inl ⟨{ s with inp := s.inp.drive d v }, rfl, rfl, h⟩
    · cases h
  | storeResult q b r =>
    rw [hostStep] at h
    obtain ⟨u, hu, -, -, hk⟩ := useOutput_next h
    obtain ⟨hb, w, n, ht, -⟩ := writeRegister_next hk
    exact .inr ⟨u, b, w, n, hu, hb, ht⟩
  | feedBack q d =>
    rw [hostStep] at h
    obtain ⟨u, hu, -, -, hk⟩ := useOutput_next h
    obtain ⟨-, -, -, hc, hf⟩ := step_frame hu
    exact .inl ⟨{ u with inp := u.inp.drive d (u.out.read q) }, hc, hf, hk⟩
  | feedMatchType =>
    rw [hostStep] at h
    obtain ⟨u, hu, -, -, hk⟩ := useOutput_next h
    obtain ⟨-, -, -, hc, hf⟩ := step_frame hu
    exact .inl ⟨{ u with inp := { u.inp with mt := (u.out.read .mtOut).setWidth 3 } }, hc, hf, hk⟩

/-- A result stored on a settled state: one byte of the chip changes. -/
theorem hostStep_storeResult {q : OutPort} {b : Byte} {s : State} (hs : s.Settled) (he : s.out.err = 0)
    (hc : carriesResult (decodeCommand s.inp.command) q = true) (hb : b.toNat < 16) :
    hostStep (.storeResult q b .success) s = .next { s with chip := Memory.store s.chip b.toNat (s.out.read q) } := by
  rw [hostStep, useOutput_settled hs he hc]
  simp [writeRegister, listedAddress, hb]

/-- A listed register fetched: its byte stands on the port, and the chip is as it was. -/
theorem hostStep_fetchRegister {d : DataPort} {b : Byte} (s : State) (hb : b.toNat < 16) :
    ∃ v o, readRegister b s = .ok v ∧ hostStep (.fetchRegister d b) s = .next { s with inp := s.inp.drive d v, out := o } := by
  obtain ⟨o, h, -⟩ := step_next { s with inp := s.inp.drive d ((Memory.lookup s.chip b.toNat).getD (Config.batteryBackedByte b.toNat)) }
  exact ⟨_, o, readRegister_listed hb s, by simp only [hostStep, readRegister_listed hb s, h]⟩

/-! ### Host programs -/

@[simp] theorem sequence_nil (k : HostProgram) : HostProgram.sequence [] k = k := rfl

@[simp] theorem sequence_cons (a : HostAction) (l : List HostAction) (k : HostProgram) :
    HostProgram.sequence (a :: l) k = .act a (HostProgram.sequence l k) := rfl

theorem sequence_append (l l' : List HostAction) (k : HostProgram) :
    HostProgram.sequence (l ++ l') k = HostProgram.sequence l (HostProgram.sequence l' k) := List.foldr_append

/-- A program goes on from the state its first action leaves. -/
theorem runHost_act {a : HostAction} {s t : State} (h : hostStep a s = .next t) (k : HostProgram) :
    runHost (.act a k) s = runHost k t := by
  simp [runHost, h]

/-- A program goes on from the state its first actions leave. -/
theorem runHost_sequence {l : List HostAction} {s t : State} (h : runHost (HostProgram.sequence l .done) s = .next t) (k : HostProgram) :
    runHost (HostProgram.sequence l k) s = runHost k t := by
  induction l generalizing s with
  | nil => cases h; rfl
  | cons a l ih =>
    cases hu : hostStep a s with
    | next u =>
      rw [sequence_cons, runHost_act hu] at h ⊢
      exact ih h
    | fault f => simp [runHost, hu] at h
    | refused r => simp [runHost, hu] at h

/-- Packed bytes stored on a settled state, in the order of the list: the chip alone changes. -/
theorem runHost_storeRegisters (l : List (RegisterField × Byte)) {s : State} (hs : s.Settled) (he : s.out.err = 0)
    (hc : ∀ p ∈ l, carriesResult (decodeCommand s.inp.command) p.1.outPort = true) (hl : ∀ p ∈ l, p.2.toNat < 16) :
    runHost (storeRegisters l) s =
      .next { s with chip := l.foldl (fun m p => Memory.store m p.2.toNat (s.out.read p.1.outPort)) s.chip } := by
  induction l generalizing s with
  | nil => rfl
  | cons p l ih =>
    rw [storeRegisters, List.map_cons, sequence_cons,
      runHost_act (hostStep_storeResult hs he (hc p List.mem_cons_self) (hl p List.mem_cons_self))]
    exact ih (settled_withChip hs _ s.freeIndex) he (fun q hq => hc q (List.mem_cons_of_mem _ hq))
      (fun q hq => hl q (List.mem_cons_of_mem _ hq))

/-- Register bytes loaded in the order of the list: each stands on its port, and the chip is as it was. -/
theorem runHost_loadRegisters (l : List (RegisterField × Byte)) (s : State) (hl : ∀ p ∈ l, p.2.toNat < 16) :
    ∃ o, runHost (loadRegisters l) s =
        .next { s with
          inp := l.foldl (fun i p =>
            i.drive p.1.inPort ((Memory.lookup s.chip p.2.toNat).getD (Config.batteryBackedByte p.2.toNat))) s.inp
          out := o } := by
  induction l generalizing s with
  | nil => exact ⟨s.out, rfl⟩
  | cons p l ih =>
    obtain ⟨v, o, hv, h⟩ := hostStep_fetchRegister (d := p.1.inPort) s (hl p List.mem_cons_self)
    rw [readRegister_listed (hl p List.mem_cons_self)] at hv
    cases hv
    rw [loadRegisters, List.map_cons, sequence_cons, runHost_act h]
    exact ih _ fun q hq => hl q (List.mem_cons_of_mem _ hq)

/-- A load of at least one register leaves the outputs settled. -/
theorem runHost_loadRegisters_settled {l : List (RegisterField × Byte)} {s t : State} (hl : ∀ p ∈ l, p.2.toNat < 16) (hne : l ≠ [])
    (h : runHost (loadRegisters l) s = .next t) : t.Settled := by
  induction l generalizing s with
  | nil => exact absurd rfl hne
  | cons p l ih =>
    obtain ⟨v, o, hv, h1⟩ := hostStep_fetchRegister (d := p.1.inPort) s (hl p List.mem_cons_self)
    rw [loadRegisters, List.map_cons, sequence_cons, runHost_act h1] at h
    by_cases hn : l = []
    · subst hn
      cases h
      simp only [hostStep, hv] at h1
      exact (step_frame h1).1
    · exact ih (fun q hq => hl q (List.mem_cons_of_mem _ hq)) hn h

/-- Driving two different ports: the order does not matter. -/
theorem drive_comm {d e : DataPort} (h : d ≠ e) (v w : Byte) (p : Inputs) : (p.drive d v).drive e w = (p.drive e w).drive d v := by
  cases d <;> cases e <;> first | rfl | exact absurd rfl h

/-- A field value presented for packing leaves what ALM.UNPACK delivers as it was (R61). -/
theorem unpacked_drive_operand (a : Alarm) (p : Inputs) (f : RegisterField) (v : Byte) :
    unpacked a (p.drive f.operandPort v) = unpacked a p := by
  cases f <;> simp [unpacked, controlMask, Inputs.drive, RegisterField.operandPort]

/-- The registers of an alarm set are in the address map. -/
theorem alarmSet_listed (a : Alarm) : ∀ p ∈ alarmSet a, p.2.toNat < 16 := by cases a <;> decide

end Sys2Proof.Laws
end

