-- ==== Sys2Proof/Laws/PerInstr.lean ====
section
/-! SUPPORT. One lemma per instruction: its command word decodes to it. -/

namespace Sys2Proof.Laws.DecodeEncode

open Sys2Proof

/-- The command word written for an instruction is read as that instruction (R60, R63, R65, R66, R74). -/
def Statement (i : Instr) : Prop := decodeCommand (encode i) = i

theorem bcdDec : Statement .bcdDec := by simp [Statement, encode, decodeCommand]

theorem bcdEnc : Statement .bcdEnc := by simp [Statement, encode, decodeCommand]

theorem mtEnc (alarm : Alarm) (mt : MatchType) : Statement (.mtEnc alarm mt) := by simp [Statement, encode, decodeCommand]

theorem mtDec (alarm : Alarm) : Statement (.mtDec alarm) := by simp [Statement, encode, decodeCommand]

theorem almPack (alarm : Alarm) (mt : MatchType) : Statement (.almPack alarm mt) := by simp [Statement, encode, decodeCommand]

theorem almUnpack (alarm : Alarm) : Statement (.almUnpack alarm) := by simp [Statement, encode, decodeCommand]

theorem reserved6 : Statement .reserved6 := by simp [Statement, encode, decodeCommand]

theorem reserved7 : Statement .reserved7 := by simp [Statement, encode, decodeCommand]

end Sys2Proof.Laws.DecodeEncode
end

