-- ==== Sys2Proof/Tests/Slice0.lean ====
section
/-! SUPPORT. The model's own tests. Expected results are the spec's: the command words are written out from R60, R63, R65 and R66, the values are
those of 95_test_vectors.md. The last part gives, for each statement with hypotheses, values that meet them. -/

namespace Sys2Proof.Tests

open Sys2Proof Sys2Proof.Machine

/-! ### Decoding, one word per row -/

theorem test_decode_bcdDec : decode [0b00000000#8] = .ok (.bcdDec, []) := by decide
/-- 95, section 2.1: CW 0x0F is BCD.DEC too. -/
theorem test_decode_bcdDec_ignored : decode [0b00001111#8] = .ok (.bcdDec, []) := by decide
theorem test_decode_bcdEnc : decode [0b00010000#8, 0xAA#8] = .ok (.bcdEnc, [0xAA#8]) := by decide
theorem test_decode_mtEnc : decode [0b00101101#8] = .ok (.mtEnc .alarm2 .everyMonth, []) := by decide
theorem test_decode_mtDec : decode [0b00111111#8] = .ok (.mtDec .alarm2, []) := by decide
theorem test_decode_almPack : decode [0b01000111#8] = .ok (.almPack .alarm1 .invalid, []) := by decide
theorem test_decode_almUnpack : decode [0b01011000#8] = .ok (.almUnpack .alarm2, []) := by decide
theorem test_decode_reserved6 : decode [0b01101111#8] = .ok (.reserved6, []) := by decide
theorem test_decode_reserved7 : decode [0b01111111#8] = .ok (.reserved7, []) := by decide
theorem test_decode_bit7 : decode [0b10000000#8] = .error .bitSevenSet := by decide
theorem test_decode_none : decode [] = .error .noCommand := by decide
theorem test_tableWord : decodeTableWord 8 0x4C = some (.almPack .alarm2 .everyWeek) := by decide
theorem test_encode_almPack : encode (.almPack .alarm2 .everyWeek) = 0x4C#7 := by decide

/-! ### The checks of an assembler line, each with a line it refuses -/

theorem test_wf_line : (AsmLine.almPack 1 (.name .everySecond) 1 22 50 (some 10)).wellFormed = true := by decide
theorem test_ill_byte : (AsmLine.bcdDec 256).wellFormed = false := by decide
theorem test_ill_alarm_zero : (AsmLine.mtEnc 0 (.name .everyDay)).wellFormed = false := by decide
theorem test_ill_alarm_three : (AsmLine.mtEnc 3 (.name .everyDay)).wellFormed = false := by decide
theorem test_ill_name : (AsmLine.mtEnc 1 (.name .reserved)).wellFormed = false := by decide
theorem test_ill_code : (AsmLine.mtEnc 1 (.code 8)).wellFormed = false := by decide
theorem test_ill_list_length : (AsmLine.almUnpack 1 [0, 0, 0]).wellFormed = false := by decide
theorem test_ill_list_byte : (AsmLine.mtDec 2 [0, 256, 0]).wellFormed = false := by decide
theorem test_ill_second_missing : (AsmLine.almPack 1 (.name .everyDay) 1 7 30 none).wellFormed = false := by decide
theorem test_ill_second_given : (AsmLine.almPack 2 (.name .everyDay) 1 7 30 (some 0)).wellFormed = false := by decide
/-- R72: the encodings that name no successful operation. -/
theorem test_illegal : [Instr.mtEnc .alarm1 .reserved, .almPack .alarm1 .invalid, .mtEnc .alarm2 .everySecond, .reserved6, .reserved7].all
    (fun i => !i.legal) = true := by decide
theorem test_opcodeNamed : opcodeNamed "ALM.PACK" = some 0b100#3 ∧ opcodeNamed "unpack" = some 0b101#3 := by decide

/-! ### One evaluation each -/

/-- A state with a command word on the control ports and data ports as `f` drives them. -/
def ports (cw : CommandWord) (f : Inputs → Inputs) : State :=
  { State.reset with inp := f (State.reset.inp.withCommand cw) }

/-- The outputs an evaluation leaves. -/
def outputsOf : Host.Outcome State Fault Refusal → Option Outputs
  | .next t => some t.out
  | .fault _ => none
  | .refused _ => none

/-- The state an action leaves. -/
def stateOf : Host.Outcome State Fault Refusal → Option State
  | .next t => some t
  | .fault _ => none
  | .refused _ => none

/-- Register bytes on the `r_*` ports. -/
def regs (sec min hour day : Byte) (p : Inputs) : Inputs := { p with rSec := sec, rMin := min, rHour := hour, rDay := day }

/-- Field values on the `d_*` ports. -/
def fields (day hour min sec : Byte) (p : Inputs) : Inputs := { p with dDay := day, dHour := hour, dMin := min, dSec := sec }

/-- 95, section 2.1: `x=0x1A -> 20`. -/
theorem test_bcdDec_invalid_nibble : outputsOf (step (ports 0x0F#7 fun p => { p with x := 0x1A#8 })) = some { Outputs.idle with y := 20#8 } := by decide
/-- 95, section 2.1: `x=0xFF -> 165`. -/
theorem test_bcdDec_max : outputsOf (step (ports 0x00#7 fun p => { p with x := 0xFF#8 })) = some { Outputs.idle with y := 165#8 } := by decide
/-- 95, section 2.2: 119 gives 0xB9. -/
theorem test_bcdEnc_119 : outputsOf (step (ports 0x10#7 fun p => { p with x := 119#8 })) = some { Outputs.idle with y := 0xB9#8 } := by decide
/-- 95, section 2.2: 255 gives 0x95. -/
theorem test_bcdEnc_255 : outputsOf (step (ports 0x1F#7 fun p => { p with x := 255#8 })) = some { Outputs.idle with y := 0x95#8 } := by decide
/-- 95, section 2.3: CW 0x24. -/
theorem test_mtEnc_everyWeek : outputsOf (step (ports 0x24#7 id)) = some { Outputs.idle with y := 0x01#8 } := by decide
/-- 95, section 2.3: CW 0x2E. -/
theorem test_mtEnc_code6 : outputsOf (step (ports 0x2E#7 id)) = some { Outputs.idle with err := 1#2, errVal := 6#3 } := by decide
/-- 95, section 2.4: the source's combination, mask 0x0A. -/
theorem test_mtDec_invalid : outputsOf (step (ports 0x30#7 (regs 0x00 0x80 0x00 0x80))) = some { Outputs.idle with mtOut := 7#3 } := by decide
/-- 95, section 2.4: alarm 2 ignores `r_sec`. -/
theorem test_mtDec_alarm2 : outputsOf (step (ports 0x38#7 (regs 0xFF 0x80 0x80 0x80))) = some { Outputs.idle with mtOut := 1#3 } := by decide
/-- 95, S8 (the corrected golden vector). -/
theorem test_almPack_golden : outputsOf (step (ports 0x40#7 (fields 1 22 50 10))) =
    some { Outputs.idle with qSec := 0x90#8, qMin := 0xD0#8, qHour := 0xA2#8, qDay := 0x81#8, secPresent := 1#1 } := by decide
/-- 95, section 2.5: alarm 2 with 255 on `d_sec`. -/
theorem test_almPack_alarm2 : outputsOf (step (ports 0x4C#7 (fields 5 18 45 255))) =
    some { Outputs.idle with qMin := 0x45#8, qHour := 0x18#8, qDay := 0x45#8 } := by decide
/-- 95, section 2.6: hours bit 6 is discarded. -/
theorem test_almUnpack_hour_bit6 : outputsOf (step (ports 0x50#7 (regs 0x00 0x30 0x52 0x01))) =
    some { Outputs.idle with vMin := 30#8, vHour := 12#8, vDay := 1#8, secPresent := 1#1, mtOut := 5#3 } := by decide
/-- 95, section 2.6: the same bytes as EverySecond, read as alarm 2. -/
theorem test_almUnpack_alarm2 : outputsOf (step (ports 0x58#7 (regs 0xFF 0x83 0x82 0x81))) =
    some { Outputs.idle with vMin := 3#8, vHour := 2#8, vDay := 1#8, mtOut := 1#3 } := by decide
/-- 95, section 2.7. -/
theorem test_reserved6 : outputsOf (step (ports 0x6F#7 (regs 1 2 3 4))) = some { Outputs.idle with err := 2#2 } := by decide
/-- 95, section 2.7. -/
theorem test_reserved7 : outputsOf (step (ports 0x70#7 (fields 1 2 3 4))) = some { Outputs.idle with err := 2#2 } := by decide

/-- The line of 95, S8 presents CW 0x40 and its operands. -/
theorem test_assemble_golden : assemble (.almPack 1 (.name .everySecond) 1 22 50 (some 10)) = some (ports 0x40#7 (fields 1 22 50 10)).inp := by decide

/-! ### Host actions -/

/-- 95, program 1, step 6: the day byte 0x81 reaches 0x0A. -/
theorem test_host_store : (stateOf (hostStep (.storeResult .qDay 0x0A#8 .success) (ports 0x43#7 (fields 1 7 30 0)))).map (·.chip) =
    some [(0x0A, 0x81#8)] := by decide
/-- 95, program 2, step 2: the zeros of a failed ALM.PACK are not written. -/
theorem test_host_failed : hostStep (.storeResult .qMin 0x0B#8 .success) (ports 0x48#7 (fields 5 18 45 0)) = .fault .failedResultUsed := rfl
/-- R135: under alarm 2 `q_sec` is not a member of the result. -/
theorem test_host_meaningless : hostStep (.storeResult .qSec 0x0B#8 .success) (ports 0x4C#7 (fields 5 18 45 0)) = .fault .meaninglessOutputUsed := rfl
/-- 95, program 3, step 3: ALM.PACK selected with the Invalid match type on `mt`, CW 0x47. -/
theorem test_host_selectOperation : (stateOf (hostStep (.selectOperation 0b100#3) (ports 0x57#7 (fields 9 13 30 15)))).map
    (fun t => (t.inp.command, t.out)) = some (0x47#7, { Outputs.idle with err := 1#2, errVal := 7#3 }) := by decide
/-- 95, program 3, step 2: the `mt_out` of ALM.UNPACK, 7 for these bytes, presented on `mt`. -/
theorem test_host_feedMatchType : (stateOf (hostStep .feedMatchType (ports 0x50#7 (regs 0x15 0xB0 0x12 0x09)))).map (·.inp.mt) = some 7#3 := by decide
/-- R196: `mt_out` = 0 after BCD.DEC is no match type. -/
theorem test_host_feedMatchType_meaningless : hostStep .feedMatchType (ports 0x00#7 id) = .fault .meaninglessOutputUsed := rfl
/-- 91 N5: an address above 0x0F. -/
theorem test_host_unlisted : hostStep (.fetchRegister .x 0x10#8) State.reset = .refused .unlistedChipAddress := rfl

/-! ### Values that meet the hypotheses of the statements -/

theorem witness_StepRunsTheDecodedInstruction :
    decode (commandByte (ports 0x4C#7 id).inp.command :: []) = .ok (.almPack .alarm2 .everyWeek, []) := by decide
theorem witness_PlacedCommandWordIsEvaluated :
    decodeTableWord 8 0x00 = some .bcdDec ∧ decodeTableWord 8 0x7F = some .reserved7 := by decide
theorem witness_AssembledLine_bcd : (AsmLine.bcdDec 255).wellFormed = true ∧ (AsmLine.bcdEnc 0).wellFormed = true := by decide
theorem witness_AssembledLine_pack :
    (AsmLine.almPack 1 (.code 7) 255 0 255 (some 255)).wellFormed = true ∧ (AsmLine.almPack 2 (.name .invalid) 0 255 0 none).wellFormed = true := by decide
theorem witness_AssembledLine_registers :
    (AsmLine.mtDec 1 [255, 0, 255, 0]).wellFormed = true ∧ (AsmLine.almUnpack 1 [0, 255, 0, 255]).wellFormed = true ∧
    (AsmLine.mtDec 2 [255, 0, 255]).wellFormed = true ∧ (AsmLine.almUnpack 2 [0, 255, 0]).wellFormed = true := by decide
theorem witness_AssembledLine_names : [MatchType.everySecond, .everyMinute, .everyHour, .everyDay, .everyWeek, .everyMonth, .invalid].all
    (fun t => (AsmLine.mtEnc 2 (.name t)).wellFormed && (AsmLine.almPack 2 (.name t) 0 0 0 none).wellFormed) = true ∧
    (AsmLine.mtEnc 1 (.code 0)).wellFormed = true := by decide
theorem witness_BcdDecResult : (ports 0x0F#7 id).inp.op = 0b000#3 := by decide
theorem witness_BcdEncResult_op : (ports 0x1F#7 id).inp.op = 0b001#3 := by decide
theorem witness_BcdEncResult_159 : (ports 0x10#7 fun p => { p with x := 159#8 }).inp.x.toNat ≤ 159 := by decide
theorem witness_BcdEncResult_99 : (ports 0x10#7 fun p => { p with x := 99#8 }).inp.x.toNat ≤ 99 := by decide
theorem witness_MaskTable : mtMask .reserved = none := by decide
theorem witness_ReverseMaskTable : 0x1F#5 ≠ 0x00#5 ∧ 0x1F#5 ≠ 0x01#5 ∧ 0x1F#5 ≠ 0x02#5 ∧ 0x1F#5 ≠ 0x06#5 ∧ 0x1F#5 ≠ 0x0E#5 ∧ 0x1F#5 ≠ 0x1E#5 := by decide
theorem witness_accepted : ¬ (MatchType.everySecond = .reserved ∨ MatchType.everySecond = .invalid ∨
    (MatchType.everySecond = .everySecond ∧ Alarm.alarm1 = .alarm2)) := by decide
theorem witness_refused : MatchType.everySecond = .reserved ∨ MatchType.everySecond = .invalid ∨
    (MatchType.everySecond = .everySecond ∧ Alarm.alarm2 = .alarm2) := by decide
theorem witness_MtEncResult_ports : (ports 0x2D#7 id).inp.op = 0b010#3 ∧ (ports 0x2D#7 id).inp.alm = Alarm.alarm2.bit ∧
    (ports 0x2D#7 id).inp.mt = MatchType.everyMonth.code := by decide
theorem witness_MtDecResult_ports : (ports 0x3F#7 id).inp.op = 0b011#3 ∧ (ports 0x3F#7 id).inp.alm = Alarm.alarm2.bit := by decide
theorem witness_StoringAPack : decodeCommand (ports 0x48#7 id).inp.command = .almPack .alarm2 .everySecond ∧
    MatchType.everySecond.legalFor .alarm2 = false := by decide
theorem witness_AlmPackResult_ports : (ports 0x40#7 id).inp.op = 0b100#3 ∧ (ports 0x40#7 id).inp.alm = Alarm.alarm1.bit ∧
    (ports 0x40#7 id).inp.mt = MatchType.everySecond.code := by decide
theorem witness_AlmUnpackResult_ports : (ports 0x50#7 id).inp.op = 0b101#3 ∧ (ports 0x50#7 id).inp.alm = Alarm.alarm1.bit := by decide
theorem witness_ReservedCodes : (ports 0x60#7 id).inp.op = 0b110#3 ∧ (ports 0x7F#7 id).inp.op = 0b111#3 := by decide
theorem witness_InvalidMatchTypeExactly : (outputsOf (exec (.almPack .alarm2 .everySecond) State.reset)).map (·.err) = some 1#2 := by decide
theorem witness_OutputsThatCarryNoResult : (outputsOf (step (ports 0x48#7 id))).map (·.err) = some 1#2 ∧
    carriesResult (decodeCommand (ports 0x4C#7 id).inp.command) .qSec = false := by decide
theorem witness_OperationsChangeOnlyTheOutputs : ∃ t, exec .bcdEnc State.reset = .next t := ⟨_, rfl⟩
theorem witness_OperationsTouchOnlyThePorts :
    State.reset.inp = ({ State.reset with chip := [(7, 1#8)], freeIndex := 3 } : State).inp := rfl
theorem witness_IgnoredInputs : decodeCommand (ports 0x3F#7 (regs 1 2 3 4)).inp.command = decodeCommand (ports 0x38#7 (regs 9 2 3 4)).inp.command ∧
    ∀ d, readsPort (decodeCommand (ports 0x3F#7 (regs 1 2 3 4)).inp.command) d = true →
      (ports 0x3F#7 (regs 1 2 3 4)).inp.read d = (ports 0x38#7 (regs 9 2 3 4)).inp.read d :=
  ⟨by decide, by intro d; cases d <;> decide⟩
theorem witness_UnpackHalves_fields : 0xFF#8 &&& 0x7F#8 = 0x7F#8 &&& 0x7F#8 ∧ 0xC0#8 &&& 0x3F#8 = 0x00#8 &&& 0x3F#8 := by decide
theorem witness_UnpackHalves_control : 0xFF#8 &&& 0x80#8 = 0x80#8 &&& 0x80#8 ∧ 0xFF#8 &&& 0xC0#8 = 0xC0#8 &&& 0xC0#8 := by decide
theorem witness_ByteFormats : mtMask .everyWeek = some 0b00001#5 ∧ ¬ (MatchType.everyWeek = .everySecond ∧ Alarm.alarm2 = .alarm2) ∧
    (79#8).toNat ≤ 79 ∧ (39#8).toNat ≤ 39 := by decide
theorem witness_BcdClosedForms : (159#8).toNat ≤ 159 ∧ 160 ≤ (160#8).toNat ∧ (158#8).toNat < (159#8).toNat ∧
    (255#8).toNat = (95#8).toNat + 160 := by decide
theorem witness_BcdEncBitIsolation : (79#8).toNat ≤ 79 ∧ 80 ≤ (80#8).toNat ∧ (99#8).toNat ≤ 99 ∧ (39#8).toNat ≤ 39 := by decide
theorem witness_BcdContractRange : BcdContract 99#8 ∧ ValidBcd 0x99#8 := ⟨by unfold BcdContract; decide, by unfold ValidBcd; decide⟩
theorem witness_MaskTablesAreInverse : mtOf 0x1E#5 ≠ .invalid ∧ mtOf 0x01#5 ≠ .invalid ∧ (0x1E#5).getLsbD 4 = true ∧
    (0x01#5).getLsbD 0 = true := by decide
theorem witness_UnlistedCombination : (0xC1#8).getLsbD 7 = true ∧ (0x02#8).getLsbD 7 = false ∧ (0x83#8).getLsbD 7 = true ∧
    (0x04#8).getLsbD 7 = false := by decide
theorem witness_legal : MatchType.everySecond.legalFor .alarm1 = true ∧ MatchType.everyMinute.legalFor .alarm2 = true := by decide
theorem witness_ChipRange : ChipRange .alarm1 .everyMonth (fields 31 23 59 59 Inputs.zero) ∧ ChipRange .alarm2 .everyWeek (fields 7 0 0 255 Inputs.zero) :=
  ⟨⟨fun _ => by decide, by decide, by decide, by decide, by decide⟩, ⟨(fun h => nomatch h), by decide, by decide, by decide, by decide⟩⟩
theorem witness_Lossless : Lossless .alarm1 (fields 39 39 79 79 Inputs.zero) ∧ Lossless .alarm2 (fields 39 39 79 255 Inputs.zero) :=
  ⟨⟨by decide, by decide, by decide, fun _ => by decide⟩, ⟨by decide, by decide, by decide, (fun h => nomatch h)⟩⟩
theorem witness_PackAfterUnpack : (unpacked .alarm1 (regs 0x15 0xB0 0x12 0x09 Inputs.zero)).mtOut = 7#3 ∧
    (unpacked .alarm2 (regs 0x00 0x45 0x18 0x45 Inputs.zero)).mtOut ≠ 7#3 := by decide
/-- A state that meets the invariant with a byte in the chip and an error on the outputs. -/
theorem witness_Inv : ({ State.reset with chip := [(0, 1#8), (15, 0#8)], out := { Outputs.idle with err := 1, errVal := 6 } } : State).Inv :=
  ⟨⟨by decide, by decide, by decide, by decide, fun _ q => by cases q <;> decide⟩, by decide⟩
theorem witness_HostAction : State.reset.Inv ∧ State.reset.Settled ∧
    ∃ t, hostStep (.storeResult .y 0x06#8 .failure) State.reset = .next t :=
  ⟨⟨⟨by decide, by decide, by decide, by decide, fun _ q => by cases q <;> decide⟩, by decide⟩, rfl, ⟨_, rfl⟩⟩
/-- 95, program 2, step 4: ALM.PACK evaluated, so that the outputs are those of the inputs. -/
def packedAlarm2 : State :=
  { ports 0x4C#7 (fields 5 18 45 0) with out := { Outputs.idle with qMin := 0x45, qHour := 0x18, qDay := 0x45 } }
theorem witness_HostProgram : packedAlarm2.Inv ∧ packedAlarm2.Settled ∧ ∃ t, runHost (storeAlarmSet .alarm2) packedAlarm2 = .next t :=
  ⟨⟨⟨by decide, by decide, by decide, by decide, fun h => absurd rfl h⟩, by decide⟩, rfl, ⟨_, rfl⟩⟩
theorem witness_Transfer : (0x0F#8).toNat < 16 ∧ 16 ≤ (0x10#8).toNat := by decide
theorem witness_FailedResult : (∃ t, step (ports 0x48#7 id) = .next t ∧ t.out.err ≠ 0#2) ∧
    (∃ t, step (ports 0x4C#7 id) = .next t ∧ t.out.err = 0#2 ∧ carriesResult (decodeCommand (ports 0x4C#7 id).inp.command) .qSec = false) :=
  ⟨⟨_, rfl, by decide⟩, ⟨_, rfl, by decide, by decide⟩⟩
theorem witness_FailedResult_matchType : ∃ t, step (ports 0x00#7 id) = .next t ∧ t.out.err = 0#2 ∧
    carriesResult (decodeCommand (ports 0x00#7 id).inp.command) .mtOut = false := ⟨_, rfl, by decide, by decide⟩
theorem witness_AllowedResult : ∃ t, step (ports 0x50#7 id) = .next t ∧ t.out.err = 0#2 ∧
    carriesResult (decodeCommand (ports 0x50#7 id).inp.command) .mtOut = true ∧
    carriesResult (decodeCommand (ports 0x50#7 id).inp.command) .vSec = true := ⟨_, rfl, by decide, by decide, by decide⟩
theorem witness_TransferOrder : (alarmSet .alarm1).reverse.Perm (alarmSet .alarm1) ∧ (alarmSet .alarm1).reverse ≠ alarmSet .alarm1 ∧
    decodeCommand (ports 0x40#7 id).inp.command = .almPack .alarm1 .everySecond := ⟨List.reverse_perm _, by decide, by decide⟩
/-- 95, program 3: the start state's alarm 1 is Invalid. -/
theorem witness_InvalidAlarm : (stateOf (runHost (.sequence (readAlarmActions .alarm1) .done)
    { State.reset with chip := [(7, 0x15#8), (8, 0xB0#8), (9, 0x12#8), (10, 0x09#8)] })).map (·.out.mtOut) = some 7#3 := by decide
/-- 95, program 2: the end state's alarm 2 is EveryWeek. -/
theorem witness_ValidAlarm : (stateOf (runHost (.sequence (readAlarmActions .alarm2) .done)
    { State.reset with chip := [(11, 0x45#8), (12, 0x18#8), (13, 0x45#8)] })).map (·.out.mtOut) = some 4#3 := by decide
theorem witness_AlarmSet : decodeCommand (ports 0x40#7 (fields 39 39 79 79)).inp.command = .almPack .alarm1 .everySecond ∧
    MatchType.everySecond.legalFor .alarm1 = true ∧ Lossless .alarm1 (ports 0x40#7 (fields 39 39 79 79)).inp :=
  ⟨by decide, by decide, by decide, by decide, by decide, fun _ => by decide⟩

end Sys2Proof.Tests
end

section
/-! The format of a register byte as it is packed and as it is read back (R27 to R30): fields of several bits, what
fits the field-value bits, and where the two decoders find the control bits. From these the statements of 10_state.md
about the day/date byte and the register sets. -/

namespace Sys2Proof.Proofs

open Sys2Proof Sys2Proof.Machine Sys2Proof.Laws

/-! ### The two decoding operations -/

/-- ALM.UNPACK drives its outputs for every input (R140). -/
theorem exec_almUnpack (a : Alarm) (s : State) :
    exec (.almUnpack a) s = .next { s with out := unpacked a s.inp } := rfl

/-- MT.DEC drives the match type of the control bits for every input (R116). -/
theorem exec_mtDec (a : Alarm) (s : State) :
    exec (.mtDec a) s = .next { s with out := { Outputs.idle with mtOut := (mtOf (controlMask a s.inp)).code } } := rfl

/-! ### The byte as packed -/

/-- A run of field bits of a packed byte is that of the BCD byte, whatever the mask (R137). -/
theorem packByte_fieldBits {f : RegisterField} {i n : Nat} (hi : ∀ j < n, (fieldMask f).getLsbD (i + j) = true)
    (m : Mask) (v : Byte) : (packByte f m v).extractLsb' i n = (bcdEnc v.toNat).extractLsb' i n := by
  ext j hj
  simp only [BitVec.getElem_extractLsb', packByte_fieldBit (hi j hj)]

set_option maxRecDepth 4000 in
/-- The BCD byte of a value whose tens digit has a place in the field lies within the field-value bits (R137). -/
theorem bcdEnc_and_fieldMask_of_fits {f : RegisterField} {v : Byte} (h : v.toNat < 10 * tensModulus f) :
    bcdEnc v.toNat &&& fieldMask f = bcdEnc v.toNat := by
  revert v; cases f <;> decide

/-- Packing a value whose tens digit has a place in the field discards nothing (R137). -/
theorem packByte_and_fieldMask_of_fits {f : RegisterField} {v : Byte} (h : v.toNat < 10 * tensModulus f) (m : Mask) :
    packByte f m v &&& fieldMask f = bcdEnc v.toNat := by
  rw [packByte_and_fieldMask, bcdEnc_and_fieldMask_of_fits h]

/-- DY is 1 only in the mask of EveryWeek (R110). -/
theorem mtMask_dy_iff {t : MatchType} {m : Mask} (h : mtMask t = some m) : m.getLsbD 0 = true ↔ t = .everyWeek := by
  revert h m; cases t <;> decide

/-! ### The byte as read back -/

/-- A field value has its tens digit in the field bits from bit 4 on and its ones digit in bits 3:0 (R141). -/
theorem fieldValue_nibbles {f : RegisterField} {n : Nat} (hn : tensModulus f = 2 ^ n) (b : Byte) :
    (fieldValue f b).toNat = 10 * (b.extractLsb' 4 n).toNat + (b.extractLsb' 0 4).toNat := by
  simp [fieldValue_digits, hn, BitVec.extractLsb'_toNat, Nat.shiftRight_eq_div_pow]

/-- Bit vectors with the same one-bit field have the same bit there. -/
theorem getLsbD_eq_of_extractLsb'_eq {v w i j : Nat} {x : BitVec v} {y : BitVec w}
    (h : x.extractLsb' i 1 = y.extractLsb' j 1) : x.getLsbD i = y.getLsbD j := by
  simpa using congrArg (BitVec.getLsbD · 0) h

/-- Both decoders see M4 in bit 7 and DY in bit 6 of the day/date byte (R30, R116, R142). -/
theorem controlMask_dayBits (a : Alarm) (p : Inputs) :
    (controlMask a p).getLsbD 1 = p.rDay.getLsbD 7 ∧ (controlMask a p).getLsbD 0 = p.rDay.getLsbD 6 := by
  obtain ⟨-, -, hM4, hDY⟩ := maskBit_controlMask a p
  exact ⟨getLsbD_eq_of_extractLsb'_eq hM4, getLsbD_eq_of_extractLsb'_eq hDY⟩

/-! ### The statements about the day/date byte and the register sets -/

/-- The day/date byte of ALM.PACK, bit for bit (R30, R132). -/
theorem packByte_dayDate_format (m : Mask) (v : Byte) :
    (packByte .dayDate m v).getLsbD 7 = m.getLsbD 1 ∧ (packByte .dayDate m v).getLsbD 6 = m.getLsbD 0 ∧
    (packByte .dayDate m v).extractLsb' 4 2 = (bcdEnc v.toNat).extractLsb' 4 2 ∧
    (packByte .dayDate m v).extractLsb' 0 4 = (bcdEnc v.toNat).extractLsb' 0 4 ∧
    (v.toNat ≤ 39 → packByte .dayDate m v &&& 0x3F#8 = bcdEnc v.toNat) := by
  obtain ⟨-, -, -, -, hM4, hDY⟩ := controlBits_bits m
  refine ⟨?bit7, ?bit6, ?tens, ?ones, ?lossless⟩
  case bit7 => rw [packByte_bit7, hM4]
  case bit6 => rw [packByte_bit6 rfl, hDY]
  case tens => exact packByte_fieldBits (by decide) m v
  case ones => exact packByte_fieldBits (by decide) m v
  case lossless =>
    intro hv
    have hfits : v.toNat < 10 * tensModulus .dayDate := Nat.lt_succ_of_le hv
    exact packByte_and_fieldMask_of_fits hfits m

/-- Settles O29: the packed byte by its control and field bits, the byte read back by its digits and the mask both
decoders take from it. -/
theorem dayByteFormat : Obligations.DayByteFormat := by
  refine ⟨?packing, ?reading, by decide, by decide⟩
  case packing =>
    intro s a t m hm hlegal
    obtain ⟨hM4, hDY, htens, hones, hlossless⟩ := packByte_dayDate_format m s.inp.dDay
    exact ⟨_, exec_almPack hm hlegal s, hM4, hDY, mtMask_dy_iff hm, htens, hones, hlossless⟩
  case reading =>
    intro s a
    exact ⟨_, exec_almUnpack a s, fieldValue_nibbles rfl s.inp.rDay, ⟨_, exec_mtDec a s, rfl, rfl⟩,
      controlMask_dayBits a s.inp⟩

/-- Settles O31: the two sets are the tables of R31 and R43, written out. -/
theorem alarmRegisterSets : Obligations.AlarmRegisterSets := by
  refine ⟨rfl, rfl, ?ascending, rfl, rfl, rfl, rfl⟩
  case ascending => intro a; cases a <;> decide

end Sys2Proof.Proofs
end

section
/-! What an operation can see and change (20_memory.md): the ports, and nothing of the chip, the former outputs or the
model's counter. -/

namespace Sys2Proof.Proofs

open Sys2Proof Sys2Proof.Machine Sys2Proof.Laws

/-- Settles O23: the outputs that the input ports determine (`exec_outputs`) are the ones both states get. -/
theorem operationsTouchOnlyThePorts : Obligations.OperationsTouchOnlyThePorts := by
  intro i s s' hinp
  obtain ⟨o, -, hdrive⟩ := exec_outputs i s.inp
  exact ⟨o, hdrive s rfl, hdrive s' hinp.symm⟩

end Sys2Proof.Proofs
end

section
/-! The two BCD operations (40_bcd_codec.md): the operation codes that select them, BCD.ENC's formula as the two digits side
by side, and the operands for which the 8-bit result port loses nothing. -/

namespace Sys2Proof.Proofs

open Sys2Proof Sys2Proof.Machine Sys2Proof.Laws

/-! ### The operations and their codes -/

/-- BCD.DEC drives the truncated value of the byte on `x` and 0 elsewhere (R90). -/
theorem exec_bcdDec (s : State) :
    exec .bcdDec s = .next { s with out := { Outputs.idle with y := BitVec.ofNat 8 (bcdDec s.inp.x) } } := rfl

/-- BCD.ENC drives the BCD byte of the value on `x` and 0 elsewhere (R92). -/
theorem exec_bcdEnc (s : State) :
    exec .bcdEnc s = .next { s with out := { Outputs.idle with y := bcdEnc s.inp.x.toNat } } := rfl

/-- The `op` port is the operation field of the command word (R60). -/
theorem opField_command (p : Inputs) : opField p.command = p.op := opField_join p.op p.alm p.mt

/-- Code 000 is BCD.DEC, whatever `alm` and `mt` hold (R63, R90). -/
theorem step_of_op_bcdDec {s : State} (h : s.inp.op = 0b000#3) : step s = exec .bcdDec s := by
  simp [step, decodeCommand, opField_command, h]

/-- Code 001 is BCD.ENC, whatever `alm` and `mt` hold (R63, R92). -/
theorem step_of_op_bcdEnc {s : State} (h : s.inp.op = 0b001#3) : step s = exec .bcdEnc s := by
  simp [step, decodeCommand, opField_command, h]

/-! ### The digits -/

/-- The result port holds every value of BCD.DEC: the largest is 165 (R90). -/
theorem toNat_ofNat_bcdDec (b : Byte) : (BitVec.ofNat 8 (bcdDec b)).toNat = bcdDec b := by
  obtain ⟨-, hmax⟩ := bcdDec_closed b
  exact Nat.mod_eq_of_lt (Nat.lt_of_le_of_lt hmax (by decide))

/-- The OR of R92 is a sum: the ones digit is below 16, so it does not meet the shifted tens. -/
theorem bcdEncUnbounded_eq (v : Nat) : bcdEncUnbounded v = 16 * (v / 10) + v % 10 := by
  have hones : v - v / 10 * 10 = v % 10 := by omega
  have hlt : v % 10 < 2 ^ 4 := by omega
  calc bcdEncUnbounded v = (v / 10) <<< 4 ||| v % 10 := by rw [bcdEncUnbounded, hones]
    _ = (v / 10) <<< 4 + v % 10 := (Nat.shiftLeft_add_eq_or_of_lt hlt _).symm
    _ = 16 * (v / 10) + v % 10 := by rw [Nat.shiftLeft_eq, Nat.mul_comm]

/-- Up to 159 the result port loses no bit of the formula's value (R92). -/
theorem toNat_bcdEnc_of_le {v : Nat} (h : v ≤ 159) : (bcdEnc v).toNat = bcdEncUnbounded v := by
  have hfits : bcdEncUnbounded v < 2 ^ 8 := by rw [bcdEncUnbounded_eq]; omega
  exact Nat.mod_eq_of_lt hfits

/-- Up to 159 the high nibble of a BCD byte is the tens digit and the low nibble the ones digit (R67, R92). -/
theorem bcdEnc_nibbles_of_le {v : Nat} (h : v ≤ 159) :
    ((bcdEnc v).extractLsb' 4 4).toNat = v / 10 ∧ ((bcdEnc v).extractLsb' 0 4).toNat = v % 10 := by
  simp only [BitVec.extractLsb'_toNat, toNat_bcdEnc_of_le h, bcdEncUnbounded_eq, Nat.shiftRight_eq_div_pow]
  omega

/-- Within the contract range both nibbles of a BCD byte are decimal digits (R67, R92). -/
theorem bcdEnc_nibbles_le_nine {v : Nat} (h : v ≤ 99) :
    (bcdEnc v).extractLsb' 4 4 ≤ 9#4 ∧ (bcdEnc v).extractLsb' 0 4 ≤ 9#4 := by
  obtain ⟨htens, hones⟩ := bcdEnc_nibbles_of_le (Nat.le_trans h (by decide))
  simp only [BitVec.le_def, htens, hones, BitVec.reduceToNat]
  omega

/-! ### The statements about the two operations -/

/-- Settles O9: the formula is `bcdEnc`, its value fits the port up to 159, and its nibbles are the two digits up to 99. -/
theorem bcdEncResult : Obligations.BcdEncResult := fun s =>
  ⟨exec_bcdEnc s, step_of_op_bcdEnc, toNat_bcdEnc_of_le, bcdEnc_nibbles_le_nine⟩

/-- Settles O8: the formula is `bcdDec`, and its value always fits the port. -/
theorem bcdDecResult : Obligations.BcdDecResult := fun s =>
  ⟨exec_bcdDec s, step_of_op_bcdDec, toNat_ofNat_bcdDec s.inp.x⟩

end Sys2Proof.Proofs
end

section
/-! The Alarm Match-Type Codec (41_match_type_codec.md): the command word that selects each of its operations, the two
outcomes of MT.ENC, and the control bits of the register bytes as the mask MT.DEC looks up. -/

namespace Sys2Proof.Proofs

open Sys2Proof Sys2Proof.Machine Sys2Proof.Laws

/-! ### The operations and their codes -/

/-- The `alm` port is the alarm field of the command word (R60). -/
theorem almField_command (p : Inputs) : almField p.command = p.alm := almField_join p.op p.alm p.mt

/-- The `mt` port is the match-type field of the command word (R60). -/
theorem mtField_command (p : Inputs) : mtField p.command = p.mt := mtField_join p.op p.alm p.mt

/-- Code 010 is MT.ENC of the alarm on `alm` and the match type on `mt` (R63, R112). -/
theorem step_of_op_mtEnc {s : State} {a : Alarm} {t : MatchType} (hop : s.inp.op = 0b010#3) (halm : s.inp.alm = a.bit)
    (hmt : s.inp.mt = t.code) : step s = exec (.mtEnc a t) s := by
  simp [step, decodeCommand, opField_command, almField_command, mtField_command, hop, halm, hmt]

/-- Code 011 is MT.DEC of the alarm on `alm`, whatever `mt` holds (R63, R116). -/
theorem step_of_op_mtDec {s : State} {a : Alarm} (hop : s.inp.op = 0b011#3) (halm : s.inp.alm = a.bit) :
    step s = exec (.mtDec a) s := by
  simp [step, decodeCommand, opField_command, almField_command, hop, halm]

/-! ### The two outcomes of MT.ENC -/

/-- MT.ENC of a match type legal for the alarm drives its mask, zero-extended (R112). -/
theorem exec_mtEnc_of_legal {a : Alarm} {t : MatchType} (h : t.legalFor a = true) (s : State) :
    ∃ m, mtMask t = some m ∧ exec (.mtEnc a t) s = .next { s with out := { Outputs.idle with y := m.setWidth 8 } } := by
  obtain ⟨m, hmask, hchecked⟩ := checkedMask_legal h
  exact ⟨m, hmask, by simp only [exec, execMtEnc, hchecked, deliver]⟩

/-- MT.ENC of any other match type raises InvalidMatchType with its code (R112, R161). -/
theorem exec_mtEnc_of_illegal {a : Alarm} {t : MatchType} (h : t.legalFor a = false) (s : State) :
    exec (.mtEnc a t) s = .next { s with out := { Outputs.idle with err := 1#2, errVal := t.code } } := by
  simp only [exec, execMtEnc, checkedMask_illegal h, raise_next, Exception.err, Exception.errVal]

/-- A match type without a mask is legal for no alarm (R65, R110). -/
theorem legalFor_eq_false_of_mtMask_none {t : MatchType} (h : mtMask t = none) (a : Alarm) : t.legalFor a = false := by
  refine Bool.eq_false_of_not_eq_true fun hlegal => ?_
  obtain ⟨m, hmask, -⟩ := checkedMask_legal hlegal
  simp [h] at hmask

/-! ### The mask MT.DEC looks up -/

/-- A one-bit field is the bit at its place. -/
theorem extractLsb'_one_eq_ofBool {w : Nat} (b : BitVec w) (i : Nat) : b.extractLsb' i 1 = BitVec.ofBool (b.getLsbD i) := by
  ext j hj
  obtain rfl : j = 0 := by omega
  simp

/-- The mask `{m1, m2, m3, m4, dy}` bit by bit, M1 as 0 for alarm 2 (R116, R140). -/
theorem controlMask_eq_append (a : Alarm) (p : Inputs) :
    controlMask a p =
      (if a = .alarm1 then BitVec.ofBool (p.rSec.getLsbD 7) else 0#1) ++ BitVec.ofBool (p.rMin.getLsbD 7) ++
        BitVec.ofBool (p.rHour.getLsbD 7) ++ BitVec.ofBool (p.rDay.getLsbD 7) ++ BitVec.ofBool (p.rDay.getLsbD 6) := by
  cases a <;> simp only [controlMask, extractLsb'_one_eq_ofBool, reduceCtorEq, if_true, if_false]

/-- M4 = 1, M3 = 0, M2 = 1 and M1 = 0 stand in no row of the table, with either DY (R114, R117). -/
theorem mtOf_unlisted (dy : Bool) : mtOf (0#1 ++ 1#1 ++ 0#1 ++ 1#1 ++ BitVec.ofBool dy) = .invalid := by
  cases dy <;> rfl

/-- Register bytes with those four bits have no match type as alarm 1 (R117). -/
theorem mtOf_controlMask_unlisted {p : Inputs} (hM4 : p.rDay.getLsbD 7 = true) (hM3 : p.rHour.getLsbD 7 = false)
    (hM2 : p.rMin.getLsbD 7 = true) (hM1 : p.rSec.getLsbD 7 = false) : mtOf (controlMask .alarm1 p) = .invalid := by
  rw [controlMask_eq_append, hM1, hM2, hM3, hM4]
  exact mtOf_unlisted _

/-! ### The statements about the two operations -/

/-- Settles O12: the two outcomes of MT.ENC by the columns of R65, and the command word that selects it. -/
theorem mtEncResult : Obligations.MtEncResult := by
  intro s a t
  refine ⟨?accepted, ?refused, step_of_op_mtEnc⟩
  case accepted =>
    intro hlegal
    rw [← legalFor_eq_false_iff, Bool.not_eq_false] at hlegal
    exact exec_mtEnc_of_legal hlegal s
  case refused =>
    intro hrefused
    exact exec_mtEnc_of_illegal (legalFor_eq_false_iff.2 hrefused) s

/-- Settles O13: the mask MT.DEC looks up is made of those five bits, and `mt` does not select it. -/
theorem mtDecResult : Obligations.MtDecResult := by
  intro s a
  have hexec := exec_mtDec a s
  rw [controlMask_eq_append] at hexec
  exact ⟨hexec, fun hop halm => (step_of_op_mtDec hop halm).trans hexec⟩

/-- Settles O39: both operations look up the same mask, which has no row, and the field values do not depend on it. -/
theorem unlistedCombinationIsInvalid : Obligations.UnlistedCombinationIsInvalid := by
  intro s hM4 hM3 hM2 hM1
  have hcode : (mtOf (controlMask .alarm1 s.inp)).code = 7#3 := by rw [mtOf_controlMask_unlisted hM4 hM3 hM2 hM1]; rfl
  exact ⟨_, _, exec_mtDec .alarm1 s, hcode, rfl, exec_almUnpack .alarm1 s, hcode, rfl, rfl, rfl, rfl, rfl⟩

/-- Settles O10: the cells are those of `mtMask` and `code`, and a match type without a mask is illegal for every alarm. -/
theorem maskTable : Obligations.MaskTable := by
  refine ⟨⟨rfl, rfl⟩, ⟨rfl, rfl⟩, ⟨rfl, rfl⟩, ⟨rfl, rfl⟩, ⟨rfl, rfl⟩, ⟨rfl, rfl⟩, rfl, rfl, ?inputError⟩
  case inputError =>
    intro t a s hnone
    exact ⟨_, exec_mtEnc_of_illegal (legalFor_eq_false_of_mtMask_none hnone a) s, rfl, rfl⟩

end Sys2Proof.Proofs
end

section
/-! The Alarm Register Packer (42_alarm_register_packer.md): the command word that selects each of its operations, the two
outcomes of ALM.PACK, the outputs in the spec's pseudocode form, and the match type read back from packed bytes. -/

namespace Sys2Proof.Proofs

open Sys2Proof Sys2Proof.Machine Sys2Proof.Laws

/-! ### The operations and their codes -/

/-- Code 100 is ALM.PACK of the alarm on `alm` and the match type on `mt` (R63, R130). -/
theorem step_of_op_almPack {s : State} {a : Alarm} {t : MatchType} (hop : s.inp.op = 0b100#3) (halm : s.inp.alm = a.bit)
    (hmt : s.inp.mt = t.code) : step s = exec (.almPack a t) s := by
  simp [step, decodeCommand, opField_command, almField_command, mtField_command, hop, halm, hmt]

/-- Code 101 is ALM.UNPACK of the alarm on `alm`, whatever `mt` holds (R63, R140). -/
theorem step_of_op_almUnpack {s : State} {a : Alarm} (hop : s.inp.op = 0b101#3) (halm : s.inp.alm = a.bit) :
    step s = exec (.almUnpack a) s := by
  simp [step, decodeCommand, opField_command, almField_command, hop, halm]

/-! ### The two outcomes of ALM.PACK -/

/-- What the validation of R131 lets through: a row of the mask table, and not EverySecond on alarm 2. -/
theorem legalFor_eq_true_iff {a : Alarm} {t : MatchType} :
    t.legalFor a = true ↔ (∃ m, mtMask t = some m) ∧ ¬ (t = .everySecond ∧ a = .alarm2) := by
  cases a <;> cases t <;> simp [MatchType.legalFor, mtMask]

/-- ALM.PACK of a match type that is not legal for the alarm raises InvalidMatchType with its code (R131, R161). -/
theorem exec_almPack_of_illegal {a : Alarm} {t : MatchType} (h : t.legalFor a = false) (s : State) :
    exec (.almPack a t) s = .next { s with out := { Outputs.idle with err := 1#2, errVal := t.code } } := by
  simp only [exec, execAlmPack, checkedMask_illegal h, raise_next, Exception.err, Exception.errVal]

/-! ### The outputs as the pseudocode writes them -/

/-- The outputs of a successful ALM.PACK with the control bits ORed in one by one (R132 to R135). -/
theorem packed_eq (a : Alarm) (m : Mask) (p : Inputs) :
    packed a m p =
      let bit : Nat → Byte := fun i => (BitVec.ofBool (m.getLsbD i)).setWidth 8
      { Outputs.idle with
        qDay := ((bcdEnc p.dDay.toNat &&& 0x3F#8) ||| (bit 0 <<< 6)) ||| (bit 1 <<< 7)
        qHour := (bcdEnc p.dHour.toNat &&& 0x3F#8) ||| (bit 2 <<< 7)
        qMin := (bcdEnc p.dMin.toNat &&& 0x7F#8) ||| (bit 3 <<< 7)
        qSec := if a = .alarm1 then (bcdEnc p.dSec.toNat &&& 0x7F#8) ||| (bit 4 <<< 7) else 0#8
        secPresent := if a = .alarm1 then 1#1 else 0#1 } := by
  simp only [packed, packByte, fieldMask, controlBits, maskBit, extractLsb'_one_eq_ofBool, BitVec.or_assoc]
  cases a <;> rfl

/-- The outputs of ALM.UNPACK with the seconds lane present for alarm 1 only (R140). -/
theorem unpacked_eq (a : Alarm) (p : Inputs) :
    unpacked a p = { Outputs.idle with
      vDay := fieldValue .dayDate p.rDay
      vHour := fieldValue .hours p.rHour
      vMin := fieldValue .minutes p.rMin
      vSec := if a = .alarm1 then fieldValue .seconds p.rSec else 0#8
      secPresent := if a = .alarm1 then 1#1 else 0#1
      mtOut := (mtOf (controlMask a p)).code } := by
  cases a <;> rfl

/-- The largest field value has the largest tens digit of the field and the ones digit 15, which is not checked (R141). -/
theorem fieldValue_le (f : RegisterField) (b : Byte) : (fieldValue f b).toNat ≤ 10 * (tensModulus f - 1) + 15 := by
  have htens : b.toNat / 16 % tensModulus f < tensModulus f := Nat.mod_lt _ (by cases f <;> decide)
  rw [fieldValue_digits]
  omega

/-- The seconds value is in range whether or not the alarm has a seconds lane (R140). -/
theorem unpacked_vSec_le (a : Alarm) (p : Inputs) : (unpacked a p).vSec.toNat ≤ 85 := by
  cases a with
  | alarm1 => exact fieldValue_le .seconds p.rSec
  | alarm2 => exact Nat.zero_le 85

/-! ### Packed bytes read back -/

/-- The mask found in packed bytes is the row of the match type they were packed with (R118, R147). -/
theorem mtOf_controlMask_packed {a : Alarm} {t : MatchType} {m : Mask} (hm : mtMask t = some m)
    (h : ¬ (t = .everySecond ∧ a = .alarm2)) (p q : Inputs) :
    mtOf (controlMask a (p.presentPacked (packed a m q))) = t := by
  rw [controlMask_packed hm h, mtOf_of_mtMask hm]

/-! ### The statements about the two operations -/

/-- Settles O14: the two outcomes of ALM.PACK by the columns of R65, the bytes in the pseudocode's form, and the command
word that selects it. -/
theorem almPackResult : Obligations.AlmPackResult := by
  intro s a t
  refine ⟨?accepted, ?refused, step_of_op_almPack⟩
  case accepted =>
    intro hlegal
    rw [← legalFor_eq_false_iff, Bool.not_eq_false] at hlegal
    obtain ⟨⟨m, hm⟩, hsecond⟩ := legalFor_eq_true_iff.1 hlegal
    have hexec := exec_almPack hm hsecond s
    rw [packed_eq] at hexec
    exact ⟨m, hm, hexec⟩
  case refused =>
    intro hrefused
    exact exec_almPack_of_illegal (legalFor_eq_false_iff.2 hrefused) s

/-- Settles O15: the fields and the mask in the pseudocode's form, `mt` does not select the operation, and each field is
bounded by its tens digits. -/
theorem almUnpackResult : Obligations.AlmUnpackResult := by
  intro s a
  have hexec := exec_almUnpack a s
  have hsec := unpacked_vSec_le a s.inp
  rw [unpacked_eq, controlMask_eq_append] at hexec
  rw [unpacked_eq] at hsec
  exact ⟨hexec, fun hop halm => (step_of_op_almUnpack hop halm).trans hexec, fieldValue_le .dayDate s.inp.rDay,
    fieldValue_le .hours s.inp.rHour, fieldValue_le .minutes s.inp.rMin, hsec⟩

/-- Settles O40: MT.DEC finds the mask of the match type in the packed bytes, and EverySecond is illegal for alarm 2. -/
theorem matchTypeSurvivesPacking : Obligations.MatchTypeSurvivesPacking := by
  refine ⟨?survives, ?refused⟩
  case survives =>
    intro s a t hlegal
    obtain ⟨⟨m, hm⟩, hsecond⟩ := legalFor_eq_true_iff.1 hlegal
    have hback := mtOf_controlMask_packed hm hsecond s.inp s.inp
    exact ⟨_, _, exec_almPack hm hsecond s, exec_mtDec a _, congrArg MatchType.code hback, rfl⟩
  case refused =>
    intro s
    exact ⟨_, exec_almPack_of_illegal rfl s, rfl, rfl⟩

/-- Settles O27: both operations look up the mask of the same control bits. -/
theorem unpackAndMtDecAgree : Obligations.UnpackAndMtDecAgree := fun a s =>
  ⟨_, _, exec_almUnpack a s, exec_mtDec a s, rfl⟩

end Sys2Proof.Proofs
end

section
/-! InvalidMatchType (60_exceptions.md, R161): the two operations that validate a match type raise it for the inputs R65
refuses, no other operation raises it, and `err_val` is the code of the match type that was refused. -/

namespace Sys2Proof.Proofs

open Sys2Proof Sys2Proof.Machine Sys2Proof.Laws

section Validation

variable {i : Instr} {s t : State} {a : Alarm} {mt : MatchType}

/-- Whether a validating operation names a success is decided by the columns of R65 alone (R72). -/
theorem legal_eq_legalFor (hi : i = .mtEnc a mt ∨ i = .almPack a mt) : i.legal = mt.legalFor a := by
  obtain rfl | rfl := hi <;> rfl

/-- Both validating operations raise InvalidMatchType alike (R131, R161). -/
theorem exec_of_illegal (hi : i = .mtEnc a mt ∨ i = .almPack a mt) (h : mt.legalFor a = false) (s : State) :
    exec i s = .next { s with out := { Outputs.idle with err := 1#2, errVal := mt.code } } := by
  obtain rfl | rfl := hi
  · exact exec_mtEnc_of_illegal h s
  · exact exec_almPack_of_illegal h s

/-- `err` is 1 exactly for a validating operation whose match type is not legal for its alarm (R161). -/
theorem err_eq_one_iff (h : exec i s = .next t) :
    t.out.err = 1#2 ↔ ∃ a mt, (i = .mtEnc a mt ∨ i = .almPack a mt) ∧ mt.legalFor a = false := by
  refine ⟨?raisedOnly, ?raised⟩
  case raisedOnly =>
    intro herr
    obtain ⟨t', hexec, houtcome⟩ := exec_outcome i s
    cases h.symm.trans hexec
    obtain ⟨-, hsuccess, -⟩ | ⟨a, mt, hi, hillegal, -⟩ | ⟨-, hout⟩ := houtcome
    · simp [hsuccess] at herr
    · exact ⟨a, mt, hi, hillegal⟩
    · simp [hout] at herr
  case raised =>
    rintro ⟨a, mt, hi, hillegal⟩
    cases h.symm.trans (exec_of_illegal hi hillegal s)
    rfl

/-- When a validating operation raises InvalidMatchType, `err_val` is the code of its own match type (R161). -/
theorem errVal_eq_code (h : exec i s = .next t) (hi : i = .mtEnc a mt ∨ i = .almPack a mt) (herr : t.out.err = 1#2) :
    t.out.errVal = mt.code := by
  obtain ⟨a', mt', hi', hillegal'⟩ := (err_eq_one_iff h).1 herr
  have hillegal : mt.legalFor a = false := by rw [← legal_eq_legalFor hi, legal_eq_legalFor hi', hillegal']
  cases h.symm.trans (exec_of_illegal hi hillegal s)
  rfl

end Validation

/-- Settles O17: the two cases are the match types that R65 refuses, and the value driven is the refused code. -/
theorem invalidMatchTypeExactly : Obligations.InvalidMatchTypeExactly := by
  intro i s
  obtain ⟨t, hexec, -⟩ := exec_outcome i s
  refine ⟨t, hexec, ?raisedExactly, ?errVal⟩
  case raisedExactly =>
    simp only [← legalFor_eq_false_iff]
    exact err_eq_one_iff hexec
  case errVal =>
    intro a mt hi herr
    have hcode : t.out.errVal = mt.code := errVal_eq_code hexec hi herr
    have hcodeOf : ∀ u, mt = u → t.out.errVal = u.code := fun u hu => hu ▸ hcode
    exact ⟨hcode, hcodeOf .reserved, hcodeOf .invalid, hcodeOf .everySecond⟩

end Sys2Proof.Proofs
end

section
/-! The command word (30_encoding.md): decoding inverts encoding from the byte stream and from the opcode table, only `op`
selects the operation, and a placed command word is what the next step evaluates. -/

namespace Sys2Proof.Proofs

open Sys2Proof Sys2Proof.Machine Sys2Proof.Laws

/-! ### Decoding a joined command word -/

/-- The command word written for an instruction decodes to it, for every instruction. -/
theorem decodeCommand_encode (i : Instr) : decodeCommand (encode i) = i := by
  cases i with
  | bcdDec => exact DecodeEncode.bcdDec
  | bcdEnc => exact DecodeEncode.bcdEnc
  | mtEnc a t => exact DecodeEncode.mtEnc a t
  | mtDec a => exact DecodeEncode.mtDec a
  | almPack a t => exact DecodeEncode.almPack a t
  | almUnpack a => exact DecodeEncode.almUnpack a
  | reserved6 => exact DecodeEncode.reserved6
  | reserved7 => exact DecodeEncode.reserved7

/-- The rows of the operation table: `op` selects the instruction, and `alm` and `mt` are looked at where the format reads
them (R61, R63, R73). -/
theorem decodeCommand_join_rows (alm : BitVec 1) (mt : BitVec 3) :
    decodeCommand (joinFields 0b000#3 alm mt) = .bcdDec ∧
    decodeCommand (joinFields 0b001#3 alm mt) = .bcdEnc ∧
    decodeCommand (joinFields 0b010#3 alm mt) = .mtEnc (Alarm.ofBit alm) (MatchType.ofCode mt) ∧
    decodeCommand (joinFields 0b011#3 alm mt) = .mtDec (Alarm.ofBit alm) ∧
    decodeCommand (joinFields 0b100#3 alm mt) = .almPack (Alarm.ofBit alm) (MatchType.ofCode mt) ∧
    decodeCommand (joinFields 0b101#3 alm mt) = .almUnpack (Alarm.ofBit alm) ∧
    decodeCommand (joinFields 0b110#3 alm mt) = .reserved6 ∧
    decodeCommand (joinFields 0b111#3 alm mt) = .reserved7 := by
  simp [decodeCommand]

/-! ### The opcode table's words -/

/-- The table's row of a command word is its command byte (R60). -/
theorem tableBytes_toNat (cw : CommandWord) : tableBytes 8 cw.toNat = [commandByte cw] := by
  have hlt : cw.toNat < 256 := Nat.lt_trans cw.isLt (by decide)
  rw [tableBytes, if_neg (by decide), if_pos hlt, BitVec.ofNat_toNat, commandByte]

/-- A command word read from the table decodes as it does on the control ports. -/
theorem decodeTableWord_toNat (cw : CommandWord) : decodeTableWord 8 cw.toNat = some (decodeCommand cw) := by
  rw [decodeTableWord, tableBytes_toNat, decode_commandByte]

/-- The instruction a list of bytes decodes to is that of the first byte's low seven bits, the other bytes being left. -/
theorem decode_eq_ok {l rest : List Byte} {i : Instr} (h : decode l = .ok (i, rest)) :
    ∃ b, l = b :: rest ∧ decodeCommand (b.setWidth 7) = i := by
  cases l with
  | nil => cases h
  | cons b l =>
    rw [decode] at h
    split at h
    · cases h
    · cases h
      exact ⟨b, rfl, rfl⟩

/-- A row of the table has one byte only where that byte is its number. -/
theorem eq_of_tableBytes_eq_singleton {nbits w : Nat} {b : Byte} (h : tableBytes nbits w = [b]) : b = BitVec.ofNat 8 w := by
  rw [tableBytes] at h
  split_ifs at h
  · cases h
    rfl
  · cases h

/-- A table word that decodes names the instruction of its low seven bits (R60). -/
theorem decodeCommand_of_decodeTableWord {nbits w : Nat} {i : Instr} (h : decodeTableWord nbits w = some i) :
    decodeCommand (BitVec.ofNat 7 w) = i := by
  rw [decodeTableWord] at h
  split at h
  case h_1 j hdecode =>
    cases h
    obtain ⟨b, hbytes, hcommand⟩ := decode_eq_ok hdecode
    rwa [eq_of_tableBytes_eq_singleton hbytes, BitVec.setWidth_ofNat_of_le (by decide)] at hcommand
  case h_2 => cases h

/-! ### The statements about the command word -/

/-- Settles O3: a command byte decodes as its command word, and so does the table's row. -/
theorem decodeInvertsEncode : Obligations.DecodeInvertsEncode := by
  intro i rest
  have hword := decodeCommand_encode i
  refine ⟨?stream, ?table⟩
  case stream => rw [decode_commandByte, hword]
  case table => rw [decodeTableWord_toNat, hword]

/-- Settles O1: bit 7 decides whether a byte is a command byte, and the eight bytes are those of the rows. -/
theorem sampleCommandWordsDecode : Obligations.SampleCommandWordsDecode :=
  ⟨rfl, rfl, rfl, rfl, rfl, rfl, rfl, rfl, rfl⟩

/-- Settles O2: a command byte decodes as its three joined fields, and the codes are those of the two tables. -/
theorem decodeFollowsTheOperationCodes : Obligations.DecodeFollowsTheOperationCodes := by
  refine ⟨?rows, rfl, rfl, rfl, rfl, rfl, rfl, rfl, rfl, rfl, rfl⟩
  case rows =>
    intro alm mt rest
    have hbyte (op : BitVec 3) : decode (commandByte (op ++ alm ++ mt) :: rest) = .ok (decodeCommand (joinFields op alm mt), rest) :=
      decode_commandByte _ rest
    obtain ⟨h0, h1, h2, h3, h4, h5, h6, h7⟩ := decodeCommand_join_rows alm mt
    simp only [hbyte, h0, h1, h2, h3, h4, h5, h6, h7, and_self]

/-- Settles O4: each row's instruction is encoded with the fields that decoding read, and the codes are their own inverses. -/
theorem encodeKeepsEveryFieldThatIsRead : Obligations.EncodeKeepsEveryFieldThatIsRead := by
  intro op alm mt
  change encode (decodeCommand (joinFields op alm mt)) = _
  obtain ⟨h0, h1, h2, h3, h4, h5, h6, h7⟩ := decodeCommand_join_rows alm mt
  have hop : op = 0#3 ∨ op = 1#3 ∨ op = 2#3 ∨ op = 3#3 ∨ op = 4#3 ∨ op = 5#3 ∨ op = 6#3 ∨ op = 7#3 := by revert op; decide
  obtain rfl | rfl | rfl | rfl | rfl | rfl | rfl | rfl := hop
  · rw [h0]; rfl
  · rw [h1]; rfl
  · rw [h2, encode, bit_ofBit, code_ofCode]; rfl
  · rw [h3, encode, bit_ofBit]; rfl
  · rw [h4, encode, bit_ofBit, code_ofCode]; rfl
  · rw [h5, encode, bit_ofBit]; rfl
  · rw [h6]; rfl
  · rw [h7]; rfl

/-- Settles O5: the command byte on the ports decodes to the instruction `step` runs, whatever stands there. -/
theorem stepRunsTheDecodedInstruction : Obligations.StepRunsTheDecodedInstruction := by
  refine ⟨?decoded, fun s rest => ⟨_, decode_commandByte s.inp.command rest⟩, fun _ => rfl⟩
  case decoded =>
    intro s i rest h
    rw [decode_commandByte] at h
    cases h
    rfl

/-- Settles O6: the placed command word is the table word's low seven bits, and driving the control ports touches nothing else. -/
theorem placedCommandWordIsEvaluated : Obligations.PlacedCommandWordIsEvaluated := by
  intro s nbits w i h
  refine ⟨?evaluated, withCommand_read s.inp (BitVec.ofNat 7 w), rfl, rfl, rfl⟩
  case evaluated =>
    have hcommand : (s.withFetchWord nbits w).inp.command = BitVec.ofNat 7 w := withCommand_command s.inp _
    rw [step, hcommand, decodeCommand_of_decodeTableWord h]

end Sys2Proof.Proofs
end

section
/-! Every evaluation (10_state.md, section 1; 60_exceptions.md): it completes with one of three outcomes, drives the outputs
alone, drives 0 where there is no result, is a function of the present inputs, and keeps the invariant. -/

namespace Sys2Proof.Proofs

open Sys2Proof Sys2Proof.Machine Sys2Proof.Laws

/-! ### The invariant -/

/-- An evaluation answers from any state (R183). -/
theorem step_completes (s : State) : ∃ t, step s = .next t := by
  obtain ⟨o, h, -⟩ := step_next s
  exact ⟨_, h⟩

/-- An evaluation needs nothing of the former outputs to leave legal and settled ones. -/
theorem step_inv {s t : State} (hchip : Memory.wf s.chip) (h : step s = .next t) : t.Inv ∧ t.Settled := by
  obtain ⟨hsettled, hlegal, -, hc, -⟩ := step_frame h
  exact ⟨⟨hlegal, hc ▸ hchip⟩, hsettled⟩

/-- Settles O46: the evaluation completes, and only the chip's form is needed of the state before. -/
theorem stepKeepsTheInvariant : Obligations.StepKeepsTheInvariant := by
  rintro s ⟨-, hchip⟩
  obtain ⟨t, h⟩ := step_completes s
  exact ⟨t, h, step_inv hchip h⟩

/-- Settles O45: every field of the start is written out. -/
theorem resetMeetsTheInvariant : Obligations.ResetMeetsTheInvariant := by
  have hlegal : OutputsLegal Outputs.idle := outputsLegal_success rfl rfl (by decide)
  exact ⟨⟨hlegal, by decide⟩, rfl, rfl, rfl⟩

/-! ### The three outcomes -/

/-- `err` is 0 exactly for the encodings R72 does not list. -/
theorem err_eq_zero_iff {i : Instr} {s t : State} (h : exec i s = .next t) : t.out.err = 0#2 ↔ i.legal = true := by
  obtain ⟨t', h', houtcome⟩ := exec_outcome i s
  cases h.symm.trans h'
  obtain ⟨hlegal, herr, -⟩ | ⟨a, mt, hi, hillegal, hout⟩ | ⟨rfl | rfl, hout⟩ := houtcome
  · simp [hlegal, herr]
  · simp [hout, legal_eq_legalFor hi, hillegal]
  · simp [hout, Instr.legal]
  · simp [hout, Instr.legal]

/-- `err` is 2 exactly for the reserved codes (R162). -/
theorem err_eq_two_iff {i : Instr} {s t : State} (h : exec i s = .next t) :
    t.out.err = 2#2 ↔ i = .reserved6 ∨ i = .reserved7 := by
  obtain ⟨t', h', houtcome⟩ := exec_outcome i s
  cases h.symm.trans h'
  obtain ⟨hlegal, herr, -⟩ | ⟨a, mt, rfl | rfl, -, hout⟩ | ⟨hi, hout⟩ := houtcome
  · have hi : ¬ (i = .reserved6 ∨ i = .reserved7) := by rintro (rfl | rfl) <;> cases hlegal
    simp [hi, herr]
  · simp [hout]
  · simp [hout]
  · simp [hout, hi]

/-- Settles O18: each value of `err` by its cause, the rest from the legality of the outputs. -/
theorem everyOutcomeIsOneOfThree : Obligations.EveryOutcomeIsOneOfThree := by
  intro i s
  obtain ⟨t, h, -⟩ := exec_outcome i s
  obtain ⟨⟨hthree, -, hzero, -, -⟩, -⟩ := exec_next h
  exact ⟨t, h, err_eq_zero_iff h, err_eq_two_iff h, hthree, hzero⟩

/-- Settles O19: the placed command word alone decides legality, and the words are counted. -/
theorem raisingCommandWordsCounted : Obligations.RaisingCommandWordsCounted := by
  refine ⟨?legality, by decide, by decide⟩
  case legality =>
    intro s cw
    obtain ⟨t, h⟩ := step_completes { s with inp := s.inp.withCommand cw }
    refine ⟨t, h, ?_⟩
    rw [step, withInp_inp, withCommand_command] at h
    exact err_eq_zero_iff h

/-- Codes 110 and 111 are the reserved rows, whatever `alm` and `mt` hold (R64). -/
theorem decodeCommand_of_op_reserved {p : Inputs} (h : p.op = 0b110#3 ∨ p.op = 0b111#3) :
    decodeCommand p.command = .reserved6 ∨ decodeCommand p.command = .reserved7 := by
  obtain h | h := h <;> simp [decodeCommand, opField_command, h]

/-- Settles O16: both rows raise the same exception, and their codes select them whatever else stands on the ports. -/
theorem reservedCodesRaiseIllegalOperation : Obligations.ReservedCodesRaiseIllegalOperation := by
  refine fun s => ⟨rfl, rfl, fun hop => ?_⟩
  obtain hi | hi := decodeCommand_of_op_reserved hop <;> rw [step, hi] <;> rfl

/-! ### Outputs without a result -/

/-- ALM.PACK leaves 0 on every output outside its result (R135). -/
theorem packed_read_eq_zero {a : Alarm} {t : MatchType} {q : OutPort} (h : carriesResult (.almPack a t) q = false) (m : Mask)
    (p : Inputs) : (packed a m p).read q = 0#8 := by
  revert h; cases a <;> cases q <;> simp [carriesResult, packed, Outputs.read]

/-- ALM.UNPACK leaves 0 on every output outside its result (R144). -/
theorem unpacked_read_eq_zero {a : Alarm} {q : OutPort} (h : carriesResult (.almUnpack a) q = false) (p : Inputs) :
    (unpacked a p).read q = 0#8 := by
  revert h; cases a <;> cases q <;> simp [carriesResult, unpacked, Outputs.read]

/-- An operation whose only result is `y` leaves 0 on every other output. -/
theorem withY_read_eq_zero {q : OutPort} (h : q ≠ .y) (v : Byte) : ({ Outputs.idle with y := v } : Outputs).read q = 0#8 := by
  revert h; cases q <;> simp [Outputs.read]

/-- MT.DEC, whose only result is `mt_out`, leaves 0 on every other output. -/
theorem withMtOut_read_eq_zero {q : OutPort} (h : q ≠ .mtOut) (c : BitVec 3) :
    ({ Outputs.idle with mtOut := c } : Outputs).read q = 0#8 := by
  revert h; cases q <;> simp [Outputs.read]

/-- An operation that raises leaves 0 on every data output (R163). -/
theorem raised_read_eq_zero (e : BitVec 2) (c : BitVec 3) (q : OutPort) :
    ({ Outputs.idle with err := e, errVal := c } : Outputs).read q = 0#8 := by
  cases q <;> rfl

/-- An output that carries no result of the operation is driven with 0 (R25). -/
theorem read_eq_zero_of_not_carriesResult {i : Instr} {s t : State} {q : OutPort} (h : exec i s = .next t)
    (hq : carriesResult i q = false) : t.out.read q = 0#8 := by
  cases i with
  | bcdDec =>
    cases h
    exact withY_read_eq_zero (by simpa [carriesResult] using hq) _
  | bcdEnc =>
    cases h
    exact withY_read_eq_zero (by simpa [carriesResult] using hq) _
  | mtEnc a mt =>
    cases hlegal : mt.legalFor a with
    | true =>
      obtain ⟨m, -, hexec⟩ := exec_mtEnc_of_legal hlegal s
      cases h.symm.trans hexec
      exact withY_read_eq_zero (by simpa [carriesResult] using hq) _
    | false =>
      cases h.symm.trans (exec_mtEnc_of_illegal hlegal s)
      exact raised_read_eq_zero _ _ q
  | mtDec a =>
    cases h
    exact withMtOut_read_eq_zero (by simpa [carriesResult] using hq) _
  | almPack a mt =>
    cases hlegal : mt.legalFor a with
    | true =>
      obtain ⟨⟨m, hm⟩, hsecond⟩ := legalFor_eq_true_iff.1 hlegal
      cases h.symm.trans (exec_almPack hm hsecond s)
      exact packed_read_eq_zero hq m s.inp
    | false =>
      cases h.symm.trans (exec_almPack_of_illegal hlegal s)
      exact raised_read_eq_zero _ _ q
  | almUnpack a =>
    cases h
    exact unpacked_read_eq_zero hq s.inp
  | reserved6 =>
    cases h
    exact raised_read_eq_zero _ _ q
  | reserved7 =>
    cases h
    exact raised_read_eq_zero _ _ q

/-- Settles O20: after a raise by the legality of the outputs, otherwise by the operation's result ports. -/
theorem outputsThatCarryNoResultAreZero : Obligations.OutputsThatCarryNoResultAreZero := by
  intro s
  obtain ⟨t, h⟩ := step_completes s
  obtain ⟨-, ⟨-, -, -, -, hraised⟩, -⟩ := step_frame h
  refine ⟨t, h, fun q hq => ?_⟩
  obtain herr | hcarries := hq
  · exact hraised herr q
  · exact read_eq_zero_of_not_carriesResult h hcarries

/-- Settles O21: the two port tables, row by row. -/
theorem operandAndResultPorts : Obligations.OperandAndResultPorts := by
  refine ⟨?bcd, ?mtEnc, ?mtDec, ?almPack, ?almUnpack⟩
  case bcd => rintro i (rfl | rfl) <;> simp [readsPort, carriesResult]
  case mtEnc => simp [readsPort, carriesResult]
  case mtDec => simp [readsPort, carriesResult, or_assoc]
  case almPack => simp [readsPort, carriesResult, or_assoc]
  case almUnpack => simp [readsPort, carriesResult, or_assoc]

/-! ### The frame -/

/-- Settles O22: an operation replaces `out` and nothing else. -/
theorem operationsChangeOnlyTheOutputs : Obligations.OperationsChangeOnlyTheOutputs := by
  intro i s t h
  obtain ⟨-, hframe⟩ := exec_next h
  rw [hframe]
  exact ⟨rfl, rfl, rfl, fun _ => rfl, rfl, readRegister_congr rfl, rfl, rfl⟩

/-! ### Dependence on the present inputs -/

/-- The outputs an evaluation drives are a function of the input ports (R20). -/
theorem step_outputs (p : Inputs) : ∃ o : Outputs, ∀ s : State, s.inp = p → step s = .next { s with out := o } := by
  obtain ⟨o, -, hdrive⟩ := exec_outputs (decodeCommand p.command) p
  exact ⟨o, fun s hs => by subst hs; exact hdrive s rfl⟩

/-- Settles O24: each input set has its outputs, and evaluating replaces whatever stood on the output ports. -/
theorem outputsDependOnPresentInputsOnly : Obligations.OutputsDependOnPresentInputsOnly := by
  intro s p q
  obtain ⟨o, hp⟩ := step_outputs p
  obtain ⟨o', hq⟩ := step_outputs q
  exact ⟨_, _, _, hp { s with inp := p } rfl, hp { s with inp := p, out := o } rfl, hq { s with inp := q, out := o } rfl,
    hp { s with inp := p, out := o' } rfl, rfl⟩

/-- MT.DEC takes its mask from the ports of its format alone (R61, R116). -/
theorem controlMask_congr {a : Alarm} {p p' : Inputs} (h : ∀ d, readsPort (.mtDec a) d = true → p.read d = p'.read d) :
    controlMask a p = controlMask a p' := by
  have hmin : p.rMin = p'.rMin := h .rMin rfl
  have hhour : p.rHour = p'.rHour := h .rHour rfl
  have hday : p.rDay = p'.rDay := h .rDay rfl
  cases a with
  | alarm1 =>
    have hsec : p.rSec = p'.rSec := h .rSec rfl
    simp only [controlMask, hsec, hmin, hhour, hday]
  | alarm2 => simp only [controlMask, hmin, hhour, hday]

/-- ALM.UNPACK takes its outputs from the ports of its format alone (R61, R140). -/
theorem unpacked_congr {a : Alarm} {p p' : Inputs} (h : ∀ d, readsPort (.almUnpack a) d = true → p.read d = p'.read d) :
    unpacked a p = unpacked a p' := by
  have hmin : p.rMin = p'.rMin := h .rMin rfl
  have hhour : p.rHour = p'.rHour := h .rHour rfl
  have hday : p.rDay = p'.rDay := h .rDay rfl
  have hmask : controlMask a p = controlMask a p' := controlMask_congr h
  cases a with
  | alarm1 =>
    have hsec : p.rSec = p'.rSec := h .rSec rfl
    simp only [unpacked, hsec, hmin, hhour, hday, hmask]
  | alarm2 => simp only [unpacked, hmin, hhour, hday, hmask]

/-- ALM.PACK takes its bytes from the mask and the ports of its format alone (R61, R130). -/
theorem packed_congr {a : Alarm} {t : MatchType} {p p' : Inputs}
    (h : ∀ d, readsPort (.almPack a t) d = true → p.read d = p'.read d) (m : Mask) : packed a m p = packed a m p' := by
  have hmin : p.dMin = p'.dMin := h .dMin rfl
  have hhour : p.dHour = p'.dHour := h .dHour rfl
  have hday : p.dDay = p'.dDay := h .dDay rfl
  cases a with
  | alarm1 =>
    have hsec : p.dSec = p'.dSec := h .dSec rfl
    simp only [packed, hsec, hmin, hhour, hday]
  | alarm2 => simp only [packed, hmin, hhour, hday]

/-- Two states that agree on the ports an operation reads get the same outputs from it. -/
theorem exec_outputs_of_agree {i : Instr} {s s' : State}
    (h : ∀ d, readsPort i d = true → s.inp.read d = s'.inp.read d) :
    ∃ o : Outputs, exec i s = .next { s with out := o } ∧ exec i s' = .next { s' with out := o } := by
  cases i with
  | bcdDec =>
    have hx : s.inp.x = s'.inp.x := h .x rfl
    exact ⟨_, exec_bcdDec s, by rw [exec_bcdDec, hx]⟩
  | bcdEnc =>
    have hx : s.inp.x = s'.inp.x := h .x rfl
    exact ⟨_, exec_bcdEnc s, by rw [exec_bcdEnc, hx]⟩
  | mtEnc a mt =>
    cases hlegal : mt.legalFor a with
    | true =>
      obtain ⟨m, hm, hexec⟩ := exec_mtEnc_of_legal hlegal s
      obtain ⟨m', hm', hexec'⟩ := exec_mtEnc_of_legal hlegal s'
      cases hm.symm.trans hm'
      exact ⟨_, hexec, hexec'⟩
    | false => exact ⟨_, exec_mtEnc_of_illegal hlegal s, exec_mtEnc_of_illegal hlegal s'⟩
  | mtDec a => exact ⟨_, exec_mtDec a s, by rw [exec_mtDec, controlMask_congr h]⟩
  | almPack a mt =>
    cases hlegal : mt.legalFor a with
    | true =>
      obtain ⟨⟨m, hm⟩, hsecond⟩ := legalFor_eq_true_iff.1 hlegal
      exact ⟨_, exec_almPack hm hsecond s, by rw [exec_almPack hm hsecond, packed_congr h]⟩
    | false => exact ⟨_, exec_almPack_of_illegal hlegal s, exec_almPack_of_illegal hlegal s'⟩
  | almUnpack a => exact ⟨_, exec_almUnpack a s, by rw [exec_almUnpack, unpacked_congr h]⟩
  | reserved6 => exact ⟨_, rfl, rfl⟩
  | reserved7 => exact ⟨_, rfl, rfl⟩

/-- Settles O25: both states run the same instruction, and it sees only the ports its format reads. -/
theorem ignoredInputsHaveNoEffect : Obligations.IgnoredInputsHaveNoEffect := by
  intro s s' hinstr hagree
  obtain ⟨o, h, h'⟩ := exec_outputs_of_agree hagree
  exact ⟨o, h, by rw [step, ← hinstr, h']⟩

end Sys2Proof.Proofs
end

section
/-! The assembler lines (30_encoding.md, section 7): a well-formed line presents its instruction on the control ports and
each of its operands on its data port. -/

namespace Sys2Proof.Proofs

open Sys2Proof Sys2Proof.Machine Sys2Proof.Laws

/-! ### Control ports -/

/-- The data operands of a line leave the control ports as they were. -/
theorem placeOperands_control (l : AsmLine) (p : Inputs) :
    (placeOperands l p).op = p.op ∧ (placeOperands l p).alm = p.alm ∧ (placeOperands l p).mt = p.mt := by
  have hregisters (r : List Nat) :
      (placeRegisters r p).op = p.op ∧ (placeRegisters r p).alm = p.alm ∧ (placeRegisters r p).mt = p.mt := by
    unfold placeRegisters
    split <;> exact ⟨rfl, rfl, rfl⟩
  cases l with
  | bcdDec x => exact ⟨rfl, rfl, rfl⟩
  | bcdEnc x => exact ⟨rfl, rfl, rfl⟩
  | mtEnc alarm mt => exact ⟨rfl, rfl, rfl⟩
  | mtDec alarm r => exact hregisters r
  | almPack alarm mt day hour min sec => exact ⟨rfl, rfl, rfl⟩
  | almUnpack alarm r => exact hregisters r

/-- The port values a line presents: its instruction's command word, then its operands. -/
def linePorts (l : AsmLine) : Inputs := placeOperands l (Inputs.zero.withCommand (encode (lineInstr l)))

/-- A well-formed line is assembled to its port values (R74). -/
theorem assemble_of_wellFormed {l : AsmLine} (h : l.wellFormed = true) : assemble l = some (linePorts l) := if_pos h

/-- The command word on the ports of a line is its instruction's. -/
theorem linePorts_command (l : AsmLine) : (linePorts l).command = encode (lineInstr l) := by
  obtain ⟨hop, halm, hmt⟩ := placeOperands_control l (Inputs.zero.withCommand (encode (lineInstr l)))
  calc (linePorts l).command = (Inputs.zero.withCommand (encode (lineInstr l))).command := by
        rw [linePorts, Inputs.command, hop, halm, hmt, Inputs.command]
    _ = encode (lineInstr l) := withCommand_command _ _

/-- The control ports of a line are the fields its instruction is encoded with. -/
theorem linePorts_control {l : AsmLine} {op : BitVec 3} {alm : BitVec 1} {mt : BitVec 3}
    (h : encode (lineInstr l) = joinFields op alm mt) :
    (linePorts l).op = op ∧ (linePorts l).alm = alm ∧ (linePorts l).mt = mt := by
  rw [← linePorts_command] at h
  refine ⟨?_, ?_, ?_⟩
  · rw [← opField_command, h, opField_join]
  · rw [← almField_command, h, almField_join]
  · rw [← mtField_command, h, mtField_join]

/-! ### Operands -/

/-- The alarm number is one more than the alarm's bit (R66, R74). -/
theorem alarmOfNumber_bit {n : Nat} (h : alarmNumberOk n = true) : (alarmOfNumber n).bit.toNat + 1 = n := by
  have hn : n = 1 ∨ n = 2 := by simpa [alarmNumberOk] using h
  obtain rfl | rfl := hn <;> rfl

/-- A checked byte keeps its value on an 8-bit port (R68). -/
theorem toNat_ofNat_of_byteOk {n : Nat} (h : byteOk n = true) : (BitVec.ofNat 8 n).toNat = n :=
  Nat.mod_eq_of_lt (by simpa [byteOk] using h)

/-- A 3-bit port holds what an `mt=` operand says: the written code, or the code of the written name (R65, R74). -/
def PresentsMatchType (c : BitVec 3) (mt : MtArg) : Prop :=
  (∀ n, mt = .code n → c.toNat = n) ∧
  (mt = .name .everySecond → c = 0#3) ∧ (mt = .name .everyMinute → c = 1#3) ∧ (mt = .name .everyHour → c = 2#3) ∧
  (mt = .name .everyDay → c = 3#3) ∧ (mt = .name .everyWeek → c = 4#3) ∧ (mt = .name .everyMonth → c = 5#3) ∧
  (mt = .name .invalid → c = 7#3)

/-- The code of a well-formed `mt=` operand is the one written or named. -/
theorem presentsMatchType {mt : MtArg} (h : mt.wellFormed = true) : PresentsMatchType (matchTypeOfArg mt).code mt := by
  cases mt with
  | name t => cases t <;> simp [PresentsMatchType, matchTypeOfArg, MatchType.code]
  | code n =>
    have hn : n < 8 := by simpa [MtArg.wellFormed] using h
    simpa [PresentsMatchType, matchTypeOfArg] using hn

/-- The register list of a well-formed line is checked (R66, R74). -/
theorem registerListOk_of_wellFormed {l : AsmLine} {alarm : Nat} {r : List Nat} (h : l.wellFormed = true)
    (hl : l = .mtDec alarm r ∨ l = .almUnpack alarm r) : registerListOk alarm r = true := by
  obtain rfl | rfl := hl
  · exact (Bool.and_eq_true_iff.1 h).2
  · exact (Bool.and_eq_true_iff.1 h).2

/-- Four register bytes stand on the four `r_*` ports, the seconds byte first (R74). -/
theorem placeRegisters_four {alarm sec min hour day : Nat} (h : registerListOk alarm [sec, min, hour, day] = true)
    (p : Inputs) :
    let q := placeRegisters [sec, min, hour, day] p
    q.rSec.toNat = sec ∧ q.rMin.toNat = min ∧ q.rHour.toNat = hour ∧ q.rDay.toNat = day := by
  simp only [registerListOk, List.all_cons, Bool.and_eq_true] at h
  obtain ⟨-, hsec, hmin, hhour, hday, -⟩ := h
  exact ⟨toNat_ofNat_of_byteOk hsec, toNat_ofNat_of_byteOk hmin, toNat_ofNat_of_byteOk hhour, toNat_ofNat_of_byteOk hday⟩

/-- Three register bytes stand on the `r_*` ports of alarm 2's lanes (R74). -/
theorem placeRegisters_three {alarm min hour day : Nat} (h : registerListOk alarm [min, hour, day] = true) (p : Inputs) :
    let q := placeRegisters [min, hour, day] p
    q.rMin.toNat = min ∧ q.rHour.toNat = hour ∧ q.rDay.toNat = day := by
  simp only [registerListOk, List.all_cons, Bool.and_eq_true] at h
  obtain ⟨-, hmin, hhour, hday, -⟩ := h
  exact ⟨toNat_ofNat_of_byteOk hmin, toNat_ofNat_of_byteOk hhour, toNat_ofNat_of_byteOk hday⟩

/-- `sec` is given for alarm 1 and stands on `d_sec`, and it is left out for alarm 2 (R74). -/
theorem second_of_secondOk {alarm : Nat} {sec : Option Nat} (h : secondOk alarm sec = true) :
    (∀ v, sec = some v → alarm = 1 ∧ (BitVec.ofNat 8 (sec.getD 0)).toNat = v) ∧ (sec = none → alarm = 2) := by
  cases sec with
  | none => simpa [secondOk] using h
  | some n =>
    simp only [secondOk, Bool.and_eq_true, beq_iff_eq] at h
    obtain ⟨halarm, hbyte⟩ := h
    simp [halarm, toNat_ofNat_of_byteOk hbyte]

/-! ### The statement -/

/-- Settles O7: the control ports by the fields the line's instruction is encoded with, each data port by the check of its
operand. -/
theorem assembledLinePresentsItsOperation : Obligations.AssembledLinePresentsItsOperation := by
  intro l hl
  refine ⟨linePorts l, assemble_of_wellFormed hl, by rw [linePorts_command, decodeCommand_encode], ?bcdDec, ?bcdEnc, ?mtEnc,
    ?mtDec, ?almPack, ?almUnpack, ?fourBytes, ?threeBytes⟩
  case bcdDec =>
    rintro v rfl
    obtain ⟨hop, halm, hmt⟩ := linePorts_control (l := .bcdDec v) rfl
    exact ⟨hop, halm, hmt, toNat_ofNat_of_byteOk hl⟩
  case bcdEnc =>
    rintro v rfl
    obtain ⟨hop, halm, hmt⟩ := linePorts_control (l := .bcdEnc v) rfl
    exact ⟨hop, halm, hmt, toNat_ofNat_of_byteOk hl⟩
  case mtEnc =>
    rintro alarm mt rfl
    obtain ⟨hnumber, harg⟩ := Bool.and_eq_true_iff.1 hl
    obtain ⟨hop, halm, hmt⟩ := linePorts_control (l := .mtEnc alarm mt) rfl
    rw [halm, hmt]
    exact ⟨hop, alarmOfNumber_bit hnumber, presentsMatchType harg⟩
  case mtDec =>
    rintro alarm r rfl
    obtain ⟨hnumber, -⟩ := Bool.and_eq_true_iff.1 hl
    obtain ⟨hop, halm, hmt⟩ := linePorts_control (l := .mtDec alarm r) rfl
    rw [halm]
    exact ⟨hop, alarmOfNumber_bit hnumber, hmt⟩
  case almPack =>
    rintro alarm mt day hour min sec rfl
    simp only [AsmLine.wellFormed, Bool.and_eq_true] at hl
    obtain ⟨⟨⟨⟨⟨hnumber, harg⟩, hday⟩, hhour⟩, hmin⟩, hsec⟩ := hl
    obtain ⟨hop, halm, hmt⟩ := linePorts_control (l := .almPack alarm mt day hour min sec) rfl
    rw [halm, hmt]
    exact ⟨hop, alarmOfNumber_bit hnumber, presentsMatchType harg, toNat_ofNat_of_byteOk hday, toNat_ofNat_of_byteOk hhour,
      toNat_ofNat_of_byteOk hmin, second_of_secondOk hsec⟩
  case almUnpack =>
    rintro alarm r rfl
    obtain ⟨hnumber, -⟩ := Bool.and_eq_true_iff.1 hl
    obtain ⟨hop, halm, hmt⟩ := linePorts_control (l := .almUnpack alarm r) rfl
    rw [halm]
    exact ⟨hop, alarmOfNumber_bit hnumber, hmt⟩
  case fourBytes =>
    intro sec min hour day hline
    have hlist := registerListOk_of_wellFormed hl hline
    obtain rfl | rfl := hline
    · exact placeRegisters_four hlist _
    · exact placeRegisters_four hlist _
  case threeBytes =>
    intro min hour day hline
    have hlist := registerListOk_of_wellFormed hl hline
    obtain rfl | rfl := hline
    · exact placeRegisters_three hlist _
    · exact placeRegisters_three hlist _

end Sys2Proof.Proofs
end

section
/-! The laws of the BCD codec (40_bcd_codec.md, section 3): its closed forms, the round trips through the two operations, the
contract range, and what a field mask hides. -/

namespace Sys2Proof.Proofs

open Sys2Proof Sys2Proof.Machine Sys2Proof.Laws

/-! ### Closed forms -/

/-- A BCD byte is the two digits side by side, less what the 8-bit port cuts off (R92, R93). -/
theorem toNat_bcdEnc (v : Nat) : (bcdEnc v).toNat = (16 * (v / 10) + v % 10) % 256 := by
  rw [bcdEnc, BitVec.toNat_ofNat, bcdEncUnbounded_eq]

/-- Up to 159 the two digits fit the port (R92). -/
theorem toNat_bcdEnc_digits {v : Nat} (h : v ≤ 159) : (bcdEnc v).toNat = 16 * (v / 10) + v % 10 := by
  rw [toNat_bcdEnc_of_le h, bcdEncUnbounded_eq]

/-- Settles O32: everything is read off the digits, sixteen times the tens plus the ones. -/
theorem bcdClosedForms : Obligations.BcdClosedForms := by
  refine ⟨?decode, ?encode, ?order⟩
  case decode =>
    intro s
    obtain ⟨hform, hmax⟩ := bcdDec_closed s.inp.x
    rw [← toNat_ofNat_bcdDec] at hform hmax
    exact ⟨_, exec_bcdDec s, hform, hmax⟩
  case encode =>
    intro s
    have hx := s.inp.x.isLt
    refine ⟨_, exec_bcdEnc s, ?_⟩
    simp only [toNat_bcdEnc]
    omega
  case order =>
    intro s s'
    refine ⟨_, _, exec_bcdEnc s, exec_bcdEnc s', ?increasing, ?repeating⟩
    case increasing =>
      intro hlt hle
      simp only [toNat_bcdEnc_digits hle, toNat_bcdEnc_digits (Nat.le_trans (Nat.le_of_lt hlt) hle)]
      omega
    case repeating =>
      intro h
      apply BitVec.eq_of_toNat_eq
      simp only [toNat_bcdEnc]
      omega

/-! ### Round trips -/

/-- Up to 159 decoding the BCD byte of a value gives the value (R95). -/
theorem ofNat_bcdDec_bcdEnc_of_le {v : Byte} (h : v.toNat ≤ 159) : BitVec.ofNat 8 (bcdDec (bcdEnc v.toNat)) = v := by
  rw [bcdDec_bcdEnc, if_pos h, BitVec.ofNat_toNat, BitVec.setWidth_eq]

/-- Encoding the decoded value of a byte gives the byte exactly when its low nibble is a digit (R95). -/
theorem bcdEnc_toNat_bcdDec (b : Byte) : bcdEnc (BitVec.ofNat 8 (bcdDec b)).toNat = b ↔ b.toNat % 16 ≤ 9 := by
  rw [toNat_ofNat_bcdDec]
  exact bcdEnc_bcdDec b

/-- Settles O33: the two compositions of `bcdDec` and `bcdEnc`, through the result port and back to `x`. -/
theorem bcdRoundTrips : Obligations.BcdRoundTrips := by
  intro s
  refine ⟨⟨_, _, exec_bcdEnc s, exec_bcdDec _, ofNat_bcdDec_bcdEnc_of_le, ?beyond⟩,
    ⟨_, _, exec_bcdDec s, exec_bcdEnc _, bcdEnc_toNat_bcdDec s.inp.x⟩⟩
  case beyond =>
    intro h
    have hnot : ¬ s.inp.x.toNat ≤ 159 := by omega
    have hvalue : bcdDec (bcdEnc s.inp.x.toNat) = s.inp.x.toNat - 160 := by rw [bcdDec_bcdEnc, if_neg hnot]
    calc (BitVec.ofNat 8 (bcdDec (bcdEnc s.inp.x.toNat))).toNat + 160 = s.inp.x.toNat - 160 + 160 := by
          rw [toNat_ofNat_bcdDec, hvalue]
      _ = s.inp.x.toNat := Nat.sub_add_cancel h

/-! ### The contract range -/

/-- A value within the contract has a valid BCD byte (R67, R92). -/
theorem validBcd_bcdEnc {v : Nat} (h : v ≤ 99) : ValidBcd (bcdEnc v) := by
  rw [ValidBcd, toNat_bcdEnc_digits (Nat.le_trans h (by decide))]
  omega

/-- A valid BCD byte decodes to a value within the contract (R67, R90). -/
theorem bcdContract_bcdDec {b : Byte} (h : ValidBcd b) : BcdContract (BitVec.ofNat 8 (bcdDec b)) := by
  obtain ⟨hhigh, hlow⟩ := h
  obtain ⟨hform, -⟩ := bcdDec_closed b
  rw [BcdContract, toNat_ofNat_bcdDec, hform]
  omega

set_option maxRecDepth 4000 in
/-- Settles O34: within the contract the byte is valid and the round trips lose nothing; the valid bytes are counted. -/
theorem bcdContractRange : Obligations.BcdContractRange := by
  refine ⟨?encodeFirst, ?decodeFirst, by decide⟩
  case encodeFirst =>
    intro s h
    exact ⟨_, _, exec_bcdEnc s, validBcd_bcdEnc h, exec_bcdDec _, ofNat_bcdDec_bcdEnc_of_le (Nat.le_trans h (by decide))⟩
  case decodeFirst =>
    intro s h
    exact ⟨_, _, exec_bcdDec s, bcdContract_bcdDec h, exec_bcdEnc _, (bcdEnc_toNat_bcdDec s.inp.x).2 h.2⟩

/-- The operand a host presents for a year is its last two digits (R186). -/
theorem toNat_yearOperand (year : Nat) : (yearOperand year).toNat = year % 100 :=
  Nat.mod_eq_of_lt (Nat.lt_trans (Nat.mod_lt year (by decide)) (by decide))

/-- Settles O35: the reduced year is within the contract. -/
theorem yearComesBackModuloHundred : Obligations.YearComesBackModuloHundred := by
  intro s year
  have hcontract : (yearOperand year).toNat ≤ 99 := by rw [toNat_yearOperand]; omega
  have hback := ofNat_bcdDec_bcdEnc_of_le (Nat.le_trans hcontract (by decide))
  exact ⟨_, _, exec_bcdEnc _, validBcd_bcdEnc hcontract, exec_bcdDec _,
    (congrArg BitVec.toNat hback).trans (toNat_yearOperand year)⟩

/-! ### Single bits and field masks -/

/-- Bit 7 of a byte tells the values from 128 on. -/
theorem getLsbD_seven (b : Byte) : b.getLsbD 7 = decide (128 ≤ b.toNat) := BitVec.msb_eq_decide b

/-- Settles O36: bit 7 stands for 128, and a byte below 64 has neither bit. -/
theorem bcdEncBitIsolation : Obligations.BcdEncBitIsolation := by
  intro s
  have hdigits (h : s.inp.x.toNat ≤ 99) := toNat_bcdEnc_digits (Nat.le_trans h (by decide))
  refine ⟨_, exec_bcdEnc s, ?clear, ?set, ?bothClear⟩
  case clear =>
    intro h
    rw [getLsbD_seven, decide_eq_false_iff_not, hdigits (by omega)]
    omega
  case set =>
    intro hlow hhigh
    rw [getLsbD_seven, decide_eq_true_iff, hdigits hhigh]
    omega
  case bothClear =>
    intro h
    have hlt : (bcdEnc s.inp.x.toNat).toNat < 2 ^ 6 := by
      rw [hdigits (by omega)]
      omega
    exact ⟨Nat.testBit_lt_two_pow (Nat.lt_trans hlt (by decide)), Nat.testBit_lt_two_pow hlt⟩

/-- ANDing with a byte sees only the low 8 bits of a number. -/
theorem and_toNat_eq (n : Nat) (mask : Byte) : n &&& mask.toNat = (BitVec.ofNat 8 n &&& mask).toNat := by
  have hlt : n &&& mask.toNat < 2 ^ 8 := Nat.and_lt_two_pow n mask.isLt
  calc n &&& mask.toNat = (n &&& mask.toNat) % 2 ^ 8 := (Nat.mod_eq_of_lt hlt).symm
    _ = n % 2 ^ 8 &&& mask.toNat % 2 ^ 8 := Nat.and_mod_two_pow
    _ = (BitVec.ofNat 8 n &&& mask).toNat := by rw [Nat.mod_eq_of_lt mask.isLt, BitVec.toNat_and, BitVec.toNat_ofNat]

/-- Settles O37: what the truncation removes lies above bit 7, outside every field mask. -/
theorem fieldMaskHidesTruncation : Obligations.FieldMaskHidesTruncation := fun f v =>
  and_toNat_eq (bcdEncUnbounded v) (fieldMask f)

end Sys2Proof.Proofs
end

section
/-! The mask table and its reverse (41_match_type_codec.md, sections 3 and 4). -/

namespace Sys2Proof.Proofs

open Sys2Proof Sys2Proof.Machine Sys2Proof.Laws

/-- A mask without a match type stands in none of the six rows (R114). -/
theorem mtOf_eq_invalid_or_row (m : Mask) :
    mtOf m = .invalid ∨ m = 0x00#5 ∨ m = 0x01#5 ∨ m = 0x02#5 ∨ m = 0x06#5 ∨ m = 0x0E#5 ∨ m = 0x1E#5 := by
  revert m; decide

/-- Settles O11: the six rows of the reverse table, and no other mask has a row. -/
theorem reverseMaskTable : Obligations.ReverseMaskTable := by
  refine ⟨rfl, rfl, rfl, rfl, rfl, rfl, ?others⟩
  case others =>
    intro m h0 h1 h2 h6 hE h1E
    simpa only [h0, h1, h2, h6, hE, h1E, or_false] using mtOf_eq_invalid_or_row m

/-- Settles O38: the table and its reverse are inverse, and the six valid masks are looked through. -/
theorem maskTablesAreInverse : Obligations.MaskTablesAreInverse := by
  refine ⟨mtOf_eq_iff, by decide, ?noSix⟩
  case noSix =>
    intro m h
    exact code_mtOf_ne_six m (congrArg MatchType.code h)

end Sys2Proof.Proofs
end

section
/-! The register bytes and the two packer operations as inverses (10_state.md, section 3; 42_alarm_register_packer.md): the
seconds, minutes and hours formats, the independence of field values and match type, unpack after pack, and pack after
unpack. -/

namespace Sys2Proof.Proofs

open Sys2Proof Sys2Proof.Machine Sys2Proof.Laws

/-! ### The seconds, minutes and hours bytes -/

/-- The field bits of a packed 7-bit field: three bits of tens, four of ones, nothing lost up to 79 (R27, R28, R137). -/
theorem packByte_sevenBit_format {f : RegisterField} (hf : f = .seconds ∨ f = .minutes) (m : Mask) (v : Byte) :
    (packByte f m v).extractLsb' 4 3 = (bcdEnc v.toNat).extractLsb' 4 3 ∧
    (packByte f m v).extractLsb' 0 4 = (bcdEnc v.toNat).extractLsb' 0 4 ∧
    (v.toNat ≤ 79 → packByte f m v &&& 0x7F#8 = bcdEnc v.toNat) := by
  have hmask : fieldMask f = 0x7F#8 := by obtain rfl | rfl := hf <;> rfl
  have htens : tensModulus f = 8 := by obtain rfl | rfl := hf <;> rfl
  refine ⟨packByte_fieldBits (by rw [hmask]; decide) m v, packByte_fieldBits (by rw [hmask]; decide) m v, ?lossless⟩
  case lossless =>
    intro hv
    have hfits : v.toNat < 10 * tensModulus f := by omega
    rw [← hmask, packByte_and_fieldMask_of_fits hfits]

/-- The hours byte as packed: M3 in bit 7, bit 6 clear, six field bits, nothing lost up to 39 (R29, R133). -/
theorem packByte_hours_format (m : Mask) (v : Byte) :
    (packByte .hours m v).getLsbD 7 = m.getLsbD 2 ∧ (packByte .hours m v).getLsbD 6 = false ∧
    (packByte .hours m v).extractLsb' 0 6 = (bcdEnc v.toNat).extractLsb' 0 6 ∧
    (v.toNat ≤ 39 → packByte .hours m v &&& 0x3F#8 = bcdEnc v.toNat) := by
  obtain ⟨-, -, hM3, hbit6, -, -⟩ := controlBits_bits m
  refine ⟨?_, ?_, packByte_fieldBits (by decide) m v, fun hv => packByte_and_fieldMask_of_fits (Nat.lt_succ_of_le hv) m⟩
  · rw [packByte_bit7, hM3]
  · rw [packByte_bit6 rfl, hbit6]

/-- Both decoders see M2 in bit 7 of the minutes byte, and for alarm 1 M1 in bit 7 of the seconds byte (R116, R142). -/
theorem controlMask_minuteSecondBits (a : Alarm) (p : Inputs) :
    (controlMask a p).getLsbD 3 = p.rMin.getLsbD 7 ∧ (a = .alarm1 → (controlMask a p).getLsbD 4 = p.rSec.getLsbD 7) := by
  obtain ⟨hM2, -, -, -⟩ := maskBit_controlMask a p
  refine ⟨getLsbD_eq_of_extractLsb'_eq hM2, ?_⟩
  rintro rfl
  exact getLsbD_eq_of_extractLsb'_eq (maskBit_controlMask_m1 .alarm1 p)

/-- Settles O28: control and field bits of the packed bytes, the digits and the mask of the bytes read back. -/
theorem secondAndMinuteByteFormats : Obligations.SecondAndMinuteByteFormats := by
  refine ⟨?packingSeconds, ?packingMinutes, ?reading, by decide, by decide, by decide, ?noSeconds⟩
  case packingSeconds =>
    intro s t m hm
    obtain ⟨hM1, -, -, -, -, -⟩ := controlBits_bits m
    exact ⟨_, exec_almPack hm (by simp) s, (packByte_bit7 .seconds m s.inp.dSec).trans hM1,
      packByte_sevenBit_format (.inl rfl) m s.inp.dSec⟩
  case packingMinutes =>
    intro s a t m hm hlegal
    obtain ⟨-, hM2, -, -, -, -⟩ := controlBits_bits m
    exact ⟨_, exec_almPack hm hlegal s, (packByte_bit7 .minutes m s.inp.dMin).trans hM2,
      packByte_sevenBit_format (.inr rfl) m s.inp.dMin⟩
  case reading =>
    intro s a
    obtain ⟨hM2, hM1⟩ := controlMask_minuteSecondBits a s.inp
    refine ⟨_, exec_almUnpack a s, fieldValue_nibbles rfl s.inp.rMin, ?seconds, ?absent, ⟨_, exec_mtDec a s, rfl, rfl⟩, hM2, hM1⟩
    case seconds =>
      rintro rfl
      exact fieldValue_nibbles rfl s.inp.rSec
    case absent =>
      rintro rfl
      exact ⟨rfl, rfl⟩
  case noSeconds => simp [alarmSet]

/-! ### Field values and match type read disjoint bits -/

/-- A field value depends on the field-value bits alone (R141, R143). -/
theorem fieldValue_congr {f : RegisterField} {b b' : Byte} (h : b &&& fieldMask f = b' &&& fieldMask f) :
    fieldValue f b = fieldValue f b' := by rw [fieldValue, fieldValue, h]

/-- Bytes that agree under a mask agree in every bit of it. -/
theorem getLsbD_eq_of_and_eq {b b' mask : Byte} {i : Nat} (h : b &&& mask = b' &&& mask) (hi : mask.getLsbD i = true) :
    b.getLsbD i = b'.getLsbD i := by
  simpa [hi] using congrArg (BitVec.getLsbD · i) h

/-- The mask depends on the control bits alone (R116, R143). -/
theorem controlMask_eq_of_controlBits_eq {p p' : Inputs} (a : Alarm) (hsec : p.rSec &&& 0x80#8 = p'.rSec &&& 0x80#8)
    (hmin : p.rMin &&& 0x80#8 = p'.rMin &&& 0x80#8) (hhour : p.rHour &&& 0x80#8 = p'.rHour &&& 0x80#8)
    (hday : p.rDay &&& 0xC0#8 = p'.rDay &&& 0xC0#8) : controlMask a p = controlMask a p' := by
  rw [controlMask_eq_append, controlMask_eq_append, getLsbD_eq_of_and_eq hsec rfl, getLsbD_eq_of_and_eq hmin rfl,
    getLsbD_eq_of_and_eq hhour rfl, getLsbD_eq_of_and_eq (i := 7) hday rfl, getLsbD_eq_of_and_eq (i := 6) hday rfl]

/-- Settles O26: the field values see the field-value bits, the match type the control bits. -/
theorem unpackHalvesAreIndependent : Obligations.UnpackHalvesAreIndependent := by
  intro a s s'
  refine ⟨_, _, exec_almUnpack a s, exec_almUnpack a s', rfl, ?fields, ?matchType⟩
  case fields =>
    intro hsec hmin hhour hday
    have hsecond : (unpacked a s.inp).vSec = (unpacked a s'.inp).vSec := by
      cases a with
      | alarm1 => exact fieldValue_congr hsec
      | alarm2 => rfl
    exact ⟨hsecond, fieldValue_congr hmin, fieldValue_congr hhour, fieldValue_congr hday⟩
  case matchType =>
    intro hsec hmin hhour hday
    exact congrArg (fun m => (mtOf m).code) (controlMask_eq_of_controlBits_eq a hsec hmin hhour hday)

/-- Flipping bits outside a mask does not show under it. -/
theorem xor_and_eq_of_and_eq_zero {flip mask : Byte} (h : flip &&& mask = 0#8) (b : Byte) :
    (b ^^^ flip) &&& mask = b &&& mask := by
  ext i hi
  have hbit : (flip[i] && mask[i]) = false := by simpa using congrArg (fun b => b[i]) h
  cases hmask : mask[i] <;> simp_all

/-- Bit 6 of the hours byte is neither a field bit nor a control bit (R29, R141). -/
theorem unpacked_flip_hourBit6 (a : Alarm) (p : Inputs) :
    unpacked a { p with rHour := p.rHour ^^^ 0x40#8 } = unpacked a p := by
  have hfield : (p.rHour ^^^ 0x40#8) &&& fieldMask .hours = p.rHour &&& fieldMask .hours := xor_and_eq_of_and_eq_zero rfl _
  have hcontrol : (p.rHour ^^^ 0x40#8) &&& 0x80#8 = p.rHour &&& 0x80#8 := xor_and_eq_of_and_eq_zero rfl _
  have hmask : controlMask a { p with rHour := p.rHour ^^^ 0x40#8 } = controlMask a p :=
    controlMask_eq_of_controlBits_eq a rfl rfl hcontrol rfl
  rw [unpacked_eq, unpacked_eq, hmask, fieldValue_congr hfield]

/-- Settles O30: the packed byte by its control and field bits, the byte read back by its digits, bit 6 apart. -/
theorem hourByteFormat : Obligations.HourByteFormat := by
  refine ⟨?packing, ?reading⟩
  case packing =>
    intro s a t m hm hlegal
    exact ⟨_, exec_almPack hm hlegal s, packByte_hours_format m s.inp.dHour⟩
  case reading =>
    intro s a
    refine ⟨_, exec_almUnpack a s, fieldValue_nibbles rfl s.inp.rHour, ?_⟩
    rw [exec_almUnpack, unpacked_flip_hourBit6]

/-! ### Unpack after pack -/

/-- A value whose tens digit has a place in the field comes back whole (R145). -/
theorem fieldValue_packByte_of_fits {f : RegisterField} {v : Byte} (h : v.toNat < 10 * tensModulus f) (m : Mask) :
    fieldValue f (packByte f m v) = v := by
  have htens : v.toNat / 10 < tensModulus f := by omega
  apply BitVec.eq_of_toNat_eq
  rw [fieldValue_packByte, Nat.mod_eq_of_lt htens]
  omega

/-- Settles O41: each field by its own byte, the match type by the mask in the packed bytes. -/
theorem unpackAfterPack : Obligations.UnpackAfterPack := by
  intro s a t hlegal
  obtain ⟨⟨m, hm⟩, hsecond⟩ := legalFor_eq_true_iff.1 hlegal
  refine ⟨_, _, exec_almPack hm hsecond s, exec_almUnpack a _, congrArg MatchType.code (mtOf_controlMask_packed hm hsecond _ _),
    fieldValue_packByte .dayDate m s.inp.dDay, fieldValue_packByte .hours m s.inp.dHour,
    fieldValue_packByte .minutes m s.inp.dMin, ?seconds⟩
  case seconds =>
    rintro rfl
    exact fieldValue_packByte .seconds m s.inp.dSec

/-- Operands within the chip's ranges are lossless (R145, R187). -/
theorem lossless_of_chipRange {a : Alarm} {t : MatchType} {p : Inputs} (h : ChipRange a t p) : Lossless a p := by
  obtain ⟨hsec, hmin, hhour, -, hday⟩ := h
  have hday31 : p.dDay.toNat ≤ 31 := by
    refine Nat.le_trans hday ?_
    split <;> decide
  exact ⟨by omega, by omega, by omega, fun ha => by have := hsec ha; omega⟩

/-- What ALM.UNPACK delivers of the packed bytes of a lossless operand set (R145). -/
theorem unpacked_packed_of_lossless {a : Alarm} {q : Inputs} (h : Lossless a q) (m : Mask) (p : Inputs) :
    let v := unpacked a (p.presentPacked (packed a m q))
    v.vDay = q.dDay ∧ v.vHour = q.dHour ∧ v.vMin = q.dMin ∧ (a = .alarm1 → v.vSec = q.dSec) := by
  obtain ⟨hday, hhour, hmin, hsec⟩ := h
  refine ⟨fieldValue_packByte_of_fits (Nat.lt_succ_of_le hday) m, fieldValue_packByte_of_fits (Nat.lt_succ_of_le hhour) m,
    fieldValue_packByte_of_fits (Nat.lt_succ_of_le hmin) m, ?_⟩
  rintro rfl
  exact fieldValue_packByte_of_fits (Nat.lt_succ_of_le (hsec rfl)) m

/-- Settles O42: a lossless field has a place for its tens digit, and the alarm decides `sec_present`. -/
theorem losslessAlarmComesBack : Obligations.LosslessAlarmComesBack := by
  refine ⟨fun a t p => lossless_of_chipRange, ?comesBack⟩
  case comesBack =>
    intro s a t hlegal hlossless
    obtain ⟨⟨m, hm⟩, hsecond⟩ := legalFor_eq_true_iff.1 hlegal
    obtain ⟨hday, hhour, hmin, hsec⟩ := unpacked_packed_of_lossless hlossless m s.inp
    refine ⟨_, _, exec_almPack hm hsecond s, exec_almUnpack a _,
      congrArg MatchType.code (mtOf_controlMask_packed hm hsecond _ _), hday, hhour, hmin, ?alarm1, ?alarm2⟩
    case alarm1 =>
      rintro rfl
      exact ⟨hsec rfl, rfl⟩
    case alarm2 =>
      rintro rfl
      rfl

/-- Settles O44: M1 is the one bit in which the masks of EverySecond and EveryMinute differ, and alarm 2 does not see it. -/
theorem wrongAlarmSelectLosesM1 : Obligations.WrongAlarmSelectLosesM1 := by
  intro s
  have hmask : controlMask .alarm2 (s.inp.presentPacked (packed .alarm1 0b11110#5 s.inp)) = 0b01110#5 := by
    simp only [controlMask_eq_append, Inputs.presentPacked, packed, packByte_bit7, packByte_bit6 (f := .dayDate) rfl]
    decide
  exact ⟨_, _, exec_almPack rfl (by decide) s, exec_mtDec .alarm2 _, congrArg (fun m => (mtOf m).code) hmask, rfl⟩

/-! ### Pack after unpack -/

/-- The control bits of a register byte: all but the field-value bits. -/
theorem eq_iff_fieldBits_controlBits (f : RegisterField) (b b' : Byte) :
    b = b' ↔ b &&& fieldMask f = b' &&& fieldMask f ∧ b &&& ~~~ fieldMask f = b' &&& ~~~ fieldMask f := by
  refine ⟨fun h => h ▸ ⟨rfl, rfl⟩, fun ⟨hfield, hcontrol⟩ => ?_⟩
  have hsplit (c : Byte) : c = (c &&& fieldMask f) ||| (c &&& ~~~ fieldMask f) := by
    rw [← BitVec.and_or_distrib_left, BitVec.or_not_self, BitVec.and_allOnes]
  rw [hsplit b, hsplit b', hfield, hcontrol]

/-- Outside the field-value bits a packed byte is its control bits, whatever the operand (R137). -/
theorem packByte_and_not_fieldMask (f : RegisterField) (m : Mask) (v : Byte) :
    packByte f m v &&& ~~~ fieldMask f = controlBits f m := by
  have hcontrol : controlBits f m &&& ~~~ fieldMask f = controlBits f m := by revert m; cases f <;> decide
  rw [packByte, BitVec.and_or_distrib_right, BitVec.and_assoc, BitVec.and_not_self, hcontrol]
  simp

set_option maxRecDepth 4000 in
/-- The field bits come back from the decoded field value exactly when the ones digit is a digit (R95, R145). -/
theorem bcdEnc_fieldValue (f : RegisterField) (b : Byte) :
    bcdEnc (fieldValue f b).toNat &&& fieldMask f = b &&& fieldMask f ↔ b.toNat % 16 ≤ 9 := by
  revert b; cases f <;> decide

/-- Re-packing a field value reproduces the byte exactly when the ones digit is a digit and the control bits are the byte's
own. -/
theorem packByte_fieldValue_iff (f : RegisterField) (m : Mask) (b : Byte) :
    packByte f m (fieldValue f b) = b ↔ b.toNat % 16 ≤ 9 ∧ controlBits f m = b &&& ~~~ fieldMask f := by
  rw [eq_iff_fieldBits_controlBits f, packByte_and_fieldMask, bcdEnc_fieldValue, packByte_and_not_fieldMask]

set_option maxRecDepth 4000 in
/-- Bit 7 of a byte in its place. -/
theorem bit7_shiftLeft (b : Byte) : (b.extractLsb' 7 1).setWidth 8 <<< 7 = b &&& 0x80#8 := by revert b; decide

set_option maxRecDepth 4000 in
/-- Bit 6 of a byte in its place. -/
theorem bit6_shiftLeft (b : Byte) : (b.extractLsb' 6 1).setWidth 8 <<< 6 = b &&& 0x40#8 := by revert b; decide

/-- The control bits of the mask read from the register bytes are those bytes' own, bit 6 of the hours byte apart (R116). -/
theorem controlBits_controlMask (a : Alarm) (p : Inputs) :
    (a = .alarm1 → controlBits .seconds (controlMask a p) = p.rSec &&& 0x80#8) ∧
    controlBits .minutes (controlMask a p) = p.rMin &&& 0x80#8 ∧
    controlBits .hours (controlMask a p) = p.rHour &&& 0x80#8 ∧
    controlBits .dayDate (controlMask a p) = p.rDay &&& 0xC0#8 := by
  obtain ⟨hM2, hM3, hM4, hDY⟩ := maskBit_controlMask a p
  simp only [controlBits, hM2, hM3, hM4, hDY, bit7_shiftLeft, bit6_shiftLeft, true_and]
  refine ⟨?seconds, ?day⟩
  case seconds =>
    rintro rfl
    rw [maskBit_controlMask_m1, bit7_shiftLeft]
  case day =>
    rw [← BitVec.and_or_distrib_left]
    rfl

set_option maxRecDepth 4000 in
/-- Bits 7 and 6 are bit 7 alone exactly when bit 6 is clear. -/
theorem and_0x80_eq_and_0xC0_iff (b : Byte) : b &&& 0x80#8 = b &&& 0xC0#8 ↔ b.getLsbD 6 = false := by revert b; decide

/-- A mask with a row that was read from register bytes passes the validation for the alarm it was read for (R131, R140). -/
theorem legal_of_mtOf_controlMask {a : Alarm} {p : Inputs} (h : mtOf (controlMask a p) ≠ .invalid) :
    mtMask (mtOf (controlMask a p)) = some (controlMask a p) ∧ ¬ (mtOf (controlMask a p) = .everySecond ∧ a = .alarm2) := by
  have hrow := (mtOf_eq_iff _ _).2 ⟨rfl, h⟩
  refine ⟨hrow, ?_⟩
  rintro ⟨hsecond, rfl⟩
  rw [hsecond] at hrow
  have hM1 : maskBit (controlMask .alarm2 p) 4 = 0#1 := maskBit_controlMask_m1 .alarm2 p
  rw [← Option.some.inj hrow] at hM1
  exact absurd hM1 (by decide)

/-- A register byte re-packed from its own field value with a mask that holds its own control bits. -/
theorem packByte_fieldValue_iff_of_controlBits {f : RegisterField} {m : Mask} {b : Byte}
    (h : controlBits f m = b &&& ~~~ fieldMask f) : packByte f m (fieldValue f b) = b ↔ b.toNat % 16 ≤ 9 :=
  (packByte_fieldValue_iff f m b).trans (and_iff_left h)

/-- The hours byte re-packed: bit 6, which no mask holds, is written as 0. -/
theorem packByte_hours_fieldValue_iff {m : Mask} {b : Byte} (h : controlBits .hours m = b &&& 0x80#8) :
    packByte .hours m (fieldValue .hours b) = b ↔ b.toNat % 16 ≤ 9 ∧ b.getLsbD 6 = false := by
  rw [packByte_fieldValue_iff, h, ← and_0x80_eq_and_0xC0_iff]
  rfl

/-- The bytes re-packed from an unpacked alarm with the mask it was read with are the bytes themselves exactly when every ones
digit is a digit and bit 6 of the hours byte is clear (R145). -/
theorem repacked_eq_iff (a : Alarm) (p : Inputs) :
    let o := packed a (controlMask a p) (p.presentUnpacked (unpacked a p))
    (o.qDay = p.rDay ∧ o.qHour = p.rHour ∧ o.qMin = p.rMin ∧ (a = .alarm1 → o.qSec = p.rSec)) ↔
      (p.rDay.toNat % 16 ≤ 9 ∧ p.rHour.toNat % 16 ≤ 9 ∧ p.rMin.toNat % 16 ≤ 9 ∧ (a = .alarm1 → p.rSec.toNat % 16 ≤ 9) ∧
        p.rHour.getLsbD 6 = false) := by
  obtain ⟨hcSec, hcMin, hcHour, hcDay⟩ := controlBits_controlMask a p
  have hday := packByte_fieldValue_iff_of_controlBits hcDay
  have hhour := packByte_hours_fieldValue_iff hcHour
  have hmin := packByte_fieldValue_iff_of_controlBits hcMin
  have hsec (ha : a = .alarm1) := packByte_fieldValue_iff_of_controlBits (hcSec ha)
  have hlanes : (a = .alarm1 → (packed a (controlMask a p) (p.presentUnpacked (unpacked a p))).qSec = p.rSec) ↔
      (a = .alarm1 → p.rSec.toNat % 16 ≤ 9) := by
    refine forall_congr' fun ha => ?_
    subst ha
    exact hsec rfl
  constructor
  · rintro ⟨hd, hh, hm, hs⟩
    obtain ⟨hones, hbit6⟩ := hhour.1 hh
    exact ⟨hday.1 hd, hones, hmin.1 hm, hlanes.1 hs, hbit6⟩
  · rintro ⟨hd, hh, hm, hs, hbit6⟩
    exact ⟨hday.2 hd, hhour.2 ⟨hh, hbit6⟩, hmin.2 hm, hlanes.2 hs⟩

/-- Settles O43: the match type read is `mtOf` of the mask; without a row it is refused, and with one the bytes are re-packed
with their own control bits. -/
theorem packAfterUnpack : Obligations.PackAfterUnpack := by
  intro s a
  have hmt : MatchType.ofCode (unpacked a s.inp).mtOut = mtOf (controlMask a s.inp) := ofCode_code _
  by_cases hinvalid : mtOf (controlMask a s.inp) = .invalid
  case pos =>
    have hcode : (unpacked a s.inp).mtOut = 7#3 := congrArg MatchType.code hinvalid
    have hillegal : (MatchType.ofCode (unpacked a s.inp).mtOut).legalFor a = false := by rw [hmt, hinvalid]; rfl
    exact ⟨_, _, exec_almUnpack a s, exec_almPack_of_illegal hillegal _,
      fun _ => ⟨rfl, (code_ofCode _).trans hcode⟩, fun hvalid => absurd hcode hvalid⟩
  case neg =>
    have hcode : (unpacked a s.inp).mtOut ≠ 7#3 := fun h => hinvalid (by rw [← hmt, h]; rfl)
    obtain ⟨hrow, hsecond⟩ := legal_of_mtOf_controlMask hinvalid
    rw [← hmt] at hrow hsecond
    exact ⟨_, _, exec_almUnpack a s, exec_almPack hrow hsecond _, fun h => absurd h hcode,
      fun _ => ⟨rfl, repacked_eq_iff a s.inp⟩⟩

end Sys2Proof.Proofs
end

section
/-! Host actions and transfers (20_memory.md; 60_exceptions.md, section 5): what every action and every program keeps, which
results a host may use, and what one transfer does to the chip. -/

namespace Sys2Proof.Proofs

open Sys2Proof Sys2Proof.Machine Sys2Proof.Laws

/-! ### The invariant along a host program -/

/-- Settles O47: an action ends in an evaluation, or in a byte stored after one. -/
theorem hostActionKeepsTheInvariant : Obligations.HostActionKeepsTheInvariant := by
  rintro a s t ⟨-, hchip⟩ h
  obtain ⟨u, hu, -, hstep⟩ | ⟨u, b, w, n, hstep, hb, rfl⟩ := hostStep_next h
  · exact step_inv (hu ▸ hchip) hstep
  · obtain ⟨⟨hlegal, hwf⟩, hsettled⟩ := step_inv hchip hstep
    exact ⟨⟨hlegal, store_wf hwf hb w⟩, settled_withChip hsettled _ n⟩

/-- Settles O48: by induction on the program; an action keeps the invariant, and a branch evaluates before it goes on. -/
theorem hostProgramKeepsTheInvariant : Obligations.HostProgramKeepsTheInvariant := by
  intro prog
  induction prog with
  | done =>
    intro s t hinv hsettled h
    cases h
    exact ⟨hinv, hsettled⟩
  | act a k ih =>
    intro s t hinv hsettled h
    rw [runHost] at h
    split at h
    case h_1 u hu =>
      obtain ⟨hinv', hsettled'⟩ := hostActionKeepsTheInvariant a s u hinv hu
      exact ih u t hinv' hsettled' h
    case h_2 => cases h
    case h_3 => cases h
  | ifErr failed succeeded ihFailed ihSucceeded =>
    intro s t hinv hsettled h
    rw [runHost, hsettled] at h
    dsimp only at h
    split at h
    · exact ihFailed s t hinv hsettled h
    · exact ihSucceeded s t hinv hsettled h

/-! ### Which results a host may use -/

section Uses

variable (q : OutPort) (a : Byte) (r : Transfer) (d : DataPort) (s : State)

/-- A store uses the output's value as the byte of a write (R44). -/
theorem hostStep_storeResult_eq :
    hostStep (.storeResult q a r) s = useOutput q (fun v t => writeRegister a v r t) s := rfl

/-- Feeding back uses the output's value as an operand (R44). -/
theorem hostStep_feedBack_eq :
    hostStep (.feedBack q d) s = useOutput q (fun v t => step { t with inp := t.inp.drive d v }) s := rfl

/-- Feeding the match type back uses `mt_out` as a match type (95, program 3). -/
theorem hostStep_feedMatchType_eq :
    hostStep .feedMatchType s = useOutput .mtOut (fun v t => step { t with inp := { t.inp with mt := v.setWidth 3 } }) s := rfl

end Uses

/-- Settles O50: each of the three actions uses an output of the evaluated state. -/
theorem failedResultIsNeverUsed : Obligations.FailedResultIsNeverUsed := by
  intro s t q a r d h
  rw [hostStep_storeResult_eq, hostStep_feedBack_eq, hostStep_feedMatchType_eq]
  refine ⟨?failed, ?meaningless, useOutput_meaningless h⟩
  case failed =>
    intro herr
    exact ⟨useOutput_failed h herr, useOutput_failed h herr, useOutput_failed h herr⟩
  case meaningless =>
    intro herr hcarries
    exact ⟨useOutput_meaningless h herr hcarries, useOutput_meaningless h herr hcarries⟩

/-- `mt_out` as a data output is its code, zero-extended; a 3-bit port takes the code back. -/
theorem setWidth_read_mtOut (o : Outputs) : (o.read .mtOut).setWidth 3 = o.mtOut := by
  rw [Outputs.read, BitVec.setWidth_setWidth_of_le _ (by decide), BitVec.setWidth_eq]

/-- Settles O55: the action's use is run on the value read, and a driven port is the only one that changes. -/
theorem allowedResultIsUsedAsItStands : Obligations.AllowedResultIsUsedAsItStands := by
  refine ⟨?used, fun p d v => ⟨drive_read_same p d v, drive_command p d v, fun e he => drive_read_ne p d e v he⟩⟩
  case used =>
    intro s t q a r d h herr hcarries
    rw [hostStep_storeResult_eq, hostStep_feedBack_eq, hostStep_feedMatchType_eq]
    refine ⟨useOutput_allowed h herr hcarries, useOutput_allowed h herr hcarries, ?matchType⟩
    case matchType =>
      rintro rfl
      rw [useOutput_allowed h herr hcarries, setWidth_read_mtOut]

/-! ### One transfer -/

/-- An address outside the map is not read (R43). -/
theorem readRegister_unlisted {a : Byte} (h : 16 ≤ a.toNat) (s : State) : readRegister a s = .error .unlistedChipAddress := by
  simp [readRegister, listedAddress, h]

/-- An address outside the map is not written (R43). -/
theorem writeRegister_unlisted {a : Byte} (h : 16 ≤ a.toNat) (v : Byte) (r : Transfer) (s : State) :
    writeRegister a v r s = .refused .unlistedChipAddress := by
  simp [writeRegister, listedAddress, h]

/-- Settles O49: a transfer stores one byte at its address, and an address outside the map is refused. -/
theorem transferTouchesOneRegister : Obligations.TransferTouchesOneRegister := by
  refine ⟨?listed, fun s a v r h => ⟨writeRegister_unlisted h v r s, readRegister_unlisted h s⟩⟩
  case listed =>
    intro s a v r ha
    obtain ⟨t, h⟩ := writeRegister_listed ha v r s
    refine ⟨t, h, ?_⟩
    obtain ⟨-, w, n, rfl, hsuccess⟩ := writeRegister_next h
    refine ⟨?readsBack, ?others, rfl, rfl⟩
    case readsBack =>
      intro hr
      obtain ⟨rfl, rfl⟩ := hsuccess hr
      exact ⟨by rw [readRegister_store s a a _ _ ha, if_pos rfl], rfl⟩
    case others =>
      intro b hb
      by_cases hlisted : b.toNat < 16
      · rw [readRegister_store s a b w n hlisted, if_neg hb]
      · rw [readRegister_unlisted (Nat.le_of_not_lt hlisted), readRegister_unlisted (Nat.le_of_not_lt hlisted)]

end Sys2Proof.Proofs
end

section
/-! The transfers of an alarm set (20_memory.md, section 2): the bytes of a list stored in the chip or driven on ports, whatever
their order, and from these the statements about storing and loading an alarm. -/

namespace Sys2Proof.Proofs

open Sys2Proof Sys2Proof.Machine Sys2Proof.Laws

/-! ### A list of bytes stored or driven -/

/-- The chip after a byte for each register of the list was stored. -/
def storeAll (value : RegisterField × Byte → Byte) (l : List (RegisterField × Byte)) (m : Memory) : Memory :=
  l.foldl (fun m r => Memory.store m r.2.toNat (value r)) m

/-- The input ports after a byte for each register of the list was driven on its field's port. -/
def driveAll (port : RegisterField → DataPort) (value : RegisterField × Byte → Byte) (l : List (RegisterField × Byte))
    (p : Inputs) : Inputs :=
  l.foldl (fun i r => i.drive (port r.1) (value r)) p

section Lists

variable {port : RegisterField → DataPort} {value : RegisterField × Byte → Byte} {l l' : List (RegisterField × Byte)}

/-- An address none of the stores went to is as it was. -/
theorem lookup_storeAll_of_not_mem {b : Byte} (h : b ∉ l.map (·.2)) (m : Memory) :
    Memory.lookup (storeAll value l m) b.toNat = Memory.lookup m b.toNat := by
  induction l generalizing m with
  | nil => rfl
  | cons r l ih =>
    rw [List.map_cons, List.mem_cons, not_or] at h
    obtain ⟨hr, hl⟩ := h
    have hne : b.toNat ≠ r.2.toNat := fun e => hr (BitVec.eq_of_toNat_eq e)
    calc Memory.lookup (storeAll value (r :: l) m) b.toNat = Memory.lookup (Memory.store m r.2.toNat (value r)) b.toNat :=
          ih hl _
      _ = Memory.lookup m b.toNat := by rw [lookup_store, if_neg hne]

/-- An address one of the stores went to holds its byte. -/
theorem lookup_storeAll_of_mem (hnodup : (l.map (·.2)).Nodup) {r : RegisterField × Byte} (h : r ∈ l) (m : Memory) :
    Memory.lookup (storeAll value l m) r.2.toNat = some (value r) := by
  induction l generalizing m with
  | nil => cases h
  | cons r' l ih =>
    rw [List.map_cons, List.nodup_cons] at hnodup
    obtain ⟨hr', hl⟩ := hnodup
    obtain rfl | hmem := List.mem_cons.1 h
    · calc Memory.lookup (storeAll value (r :: l) m) r.2.toNat = Memory.lookup (Memory.store m r.2.toNat (value r)) r.2.toNat :=
            lookup_storeAll_of_not_mem hr' _
        _ = some (value r) := by rw [lookup_store, if_pos rfl]
    · exact ih hl hmem _

/-- Driving data ports leaves the command word as it was. -/
theorem driveAll_command (p : Inputs) : (driveAll port value l p).command = p.command := by
  induction l generalizing p with
  | nil => rfl
  | cons r l ih => exact (ih _).trans (drive_command p (port r.1) (value r))

/-- A port of none of the fields is as it was. -/
theorem driveAll_read_of_not_mem {d : DataPort} (h : d ∉ l.map fun r => port r.1) (p : Inputs) :
    (driveAll port value l p).read d = p.read d := by
  induction l generalizing p with
  | nil => rfl
  | cons r l ih =>
    rw [List.map_cons, List.mem_cons, not_or] at h
    obtain ⟨hr, hl⟩ := h
    exact (ih hl _).trans (drive_read_ne p (port r.1) d (value r) hr)

/-- The port of a field holds the byte of its register. -/
theorem driveAll_read_of_mem (hnodup : (l.map fun r => port r.1).Nodup) {r : RegisterField × Byte} (h : r ∈ l) (p : Inputs) :
    (driveAll port value l p).read (port r.1) = value r := by
  induction l generalizing p with
  | nil => cases h
  | cons r' l ih =>
    rw [List.map_cons, List.nodup_cons] at hnodup
    obtain ⟨hr', hl⟩ := hnodup
    obtain rfl | hmem := List.mem_cons.1 h
    · exact (driveAll_read_of_not_mem hr' _).trans (drive_read_same p (port r.1) (value r))
    · exact ih hl hmem _

/-- Stores at different addresses give the same chip in any order. -/
theorem storeAll_perm (h : l.Perm l') (hnodup : (l.map (·.2)).Nodup) (m : Memory) : storeAll value l m = storeAll value l' m := by
  refine h.foldl_eq' (fun r hr r' hr' m => ?_) m
  by_cases heq : r = r'
  · rw [heq]
  · have haddress : r.2 ≠ r'.2 := fun e => heq (List.inj_on_of_nodup_map hnodup hr hr' e)
    exact store_comm (fun e => haddress (BitVec.eq_of_toNat_eq e)) _ _ m

/-- Driving different ports gives the same inputs in any order. -/
theorem driveAll_perm (h : l.Perm l') (hnodup : (l.map fun r => port r.1).Nodup) (p : Inputs) :
    driveAll port value l p = driveAll port value l' p := by
  refine h.foldl_eq' (fun r hr r' hr' p => ?_) p
  by_cases heq : r = r'
  · rw [heq]
  · have hport : port r.1 ≠ port r'.1 := fun e => heq (List.inj_on_of_nodup_map hnodup hr hr' e)
    exact drive_comm hport _ _ p

end Lists

/-! ### The alarm sets -/

/-- The registers of an alarm have different addresses (R43). -/
theorem alarmSet_addresses_nodup (a : Alarm) : ((alarmSet a).map (·.2)).Nodup := by cases a <;> decide

/-- The registers of an alarm are read onto different ports (R31). -/
theorem alarmSet_inPorts_nodup (a : Alarm) : ((alarmSet a).map fun r => r.1.inPort).Nodup := by cases a <;> decide

/-- The fields of an alarm are packed from different ports (R24). -/
theorem alarmSet_operandPorts_nodup (a : Alarm) : ((alarmSet a).map fun r => r.1.operandPort).Nodup := by cases a <;> decide

theorem alarmSet_ne_nil (a : Alarm) : alarmSet a ≠ [] := by cases a <;> decide

/-- The bytes of an alarm set carry the result of ALM.PACK (R130). -/
theorem carriesResult_almPack (a : Alarm) (mt : MatchType) : ∀ r ∈ alarmSet a, carriesResult (.almPack a mt) r.1.outPort = true := by
  cases a <;> simp [alarmSet, carriesResult, RegisterField.outPort]

/-- The fields of an alarm set carry the result of ALM.UNPACK (R141). -/
theorem carriesResult_almUnpack (a : Alarm) : ∀ r ∈ alarmSet a, carriesResult (.almUnpack a) r.1.valuePort = true := by
  cases a <;> simp [alarmSet, carriesResult, RegisterField.valuePort]

/-- ALM.UNPACK reads the ports of its alarm's registers (R61). -/
theorem mem_alarmSet_of_readsPort {a : Alarm} {d : DataPort} (h : readsPort (.almUnpack a) d = true) :
    ∃ r ∈ alarmSet a, r.1.inPort = d := by
  revert h; cases a <;> cases d <;> simp [readsPort, alarmSet, RegisterField.inPort]

/-! ### Storing -/

/-- Using an output evaluates first, so an evaluation before it makes no difference (R20). -/
theorem useOutput_step {q : OutPort} {k : Byte → State → Host.Outcome State Fault Refusal} {s t : State} (h : step s = .next t) :
    useOutput q k s = useOutput q k t := by
  obtain ⟨hsettled, -⟩ := step_frame h
  rw [useOutput, useOutput, h, hsettled]

/-- The first transfer of a store evaluates the inputs that stand. -/
theorem runHost_storeRegisters_step {l : List (RegisterField × Byte)} (hne : l ≠ []) {s t : State} (h : step s = .next t) :
    runHost (storeRegisters l) s = runHost (storeRegisters l) t := by
  obtain ⟨r, l, rfl⟩ := List.exists_cons_of_ne_nil hne
  rw [storeRegisters, List.map_cons, sequence_cons, runHost, runHost, hostStep_storeResult_eq, hostStep_storeResult_eq,
    useOutput_step h]

/-- A store after a failed operation stops at its first transfer (R169). -/
theorem runHost_storeRegisters_failed {l : List (RegisterField × Byte)} (hne : l ≠ []) {s t : State} (h : step s = .next t)
    (herr : t.out.err ≠ 0#2) : runHost (storeRegisters l) s = .fault .failedResultUsed := by
  obtain ⟨r, l, rfl⟩ := List.exists_cons_of_ne_nil hne
  rw [storeRegisters, List.map_cons, sequence_cons, runHost, hostStep_storeResult_eq, useOutput_failed h herr]

/-- The byte ALM.PACK delivers for a register. -/
def packedRegisterByte (a : Alarm) (m : Mask) (p : Inputs) (r : RegisterField × Byte) : Byte := (packed a m p).read r.1.outPort

section Packing

variable {s : State} {a : Alarm} {mt : MatchType}

/-- With a legal ALM.PACK on the control ports, any order of an alarm's registers is stored: each gets its packed byte. -/
theorem runHost_storeRegisters_packed (hi : decodeCommand s.inp.command = .almPack a mt) {m : Mask} (hm : mtMask mt = some m)
    (hsecond : ¬ (mt = .everySecond ∧ a = .alarm2)) {l : List (RegisterField × Byte)} (hl : l.Perm (alarmSet a)) :
    runHost (storeRegisters l) s = .next { s with
      out := packed a m s.inp
      chip := storeAll (packedRegisterByte a m s.inp) l s.chip } := by
  have hstep : step s = .next { s with out := packed a m s.inp } := by rw [step, hi, exec_almPack hm hsecond]
  obtain ⟨hsettled, -⟩ := step_frame hstep
  have hne : l ≠ [] := fun h => alarmSet_ne_nil a (List.nil_perm.1 (h ▸ hl))
  rw [runHost_storeRegisters_step hne hstep]
  refine runHost_storeRegisters l hsettled rfl (fun r hr => ?_) (fun r hr => alarmSet_listed a r (hl.mem_iff.1 hr))
  rw [withOut_inp, hi]
  exact carriesResult_almPack a mt r (hl.mem_iff.1 hr)

/-- With an illegal ALM.PACK on the control ports, no order of an alarm's registers is stored (R188). -/
theorem runHost_storeRegisters_illegal (hi : decodeCommand s.inp.command = .almPack a mt) (h : mt.legalFor a = false)
    {l : List (RegisterField × Byte)} (hl : l.Perm (alarmSet a)) :
    runHost (storeRegisters l) s = .fault .failedResultUsed := by
  have hstep : step s = .next { s with out := { Outputs.idle with err := 1#2, errVal := mt.code } } := by
    rw [step, hi, exec_almPack_of_illegal h]
  have hne : l ≠ [] := fun e => alarmSet_ne_nil a (List.nil_perm.1 (e ▸ hl))
  exact runHost_storeRegisters_failed hne hstep (show 1#2 ≠ 0#2 by decide)

/-- A legal ALM.PACK on the control ports can be stored. -/
theorem safeHostRun_storeAlarmSet (hi : decodeCommand s.inp.command = .almPack a mt) (h : mt.legalFor a = true) :
    SafeHostRun (storeAlarmSet a) s := by
  obtain ⟨⟨m, hm⟩, hsecond⟩ := legalFor_eq_true_iff.1 h
  exact ⟨_, runHost_storeRegisters_packed hi hm hsecond (.refl _)⟩

/-- An illegal ALM.PACK on the control ports stops the store. -/
theorem runHost_storeAlarmSet_illegal (hi : decodeCommand s.inp.command = .almPack a mt) (h : mt.legalFor a = false) :
    runHost (storeAlarmSet a) s = .fault .failedResultUsed :=
  runHost_storeRegisters_illegal hi h (.refl _)

end Packing

/-- What each register reads as after an alarm's bytes were stored. -/
theorem readRegister_storeAll_of_mem {a : Alarm} {r : RegisterField × Byte} (h : r ∈ alarmSet a)
    {value : RegisterField × Byte → Byte} {s t : State} (hchip : t.chip = storeAll value (alarmSet a) s.chip) :
    readRegister r.2 t = .ok (value r) := by
  rw [readRegister_listed (alarmSet_listed a r h), hchip, lookup_storeAll_of_mem (alarmSet_addresses_nodup a) h, Option.getD_some]

/-- Storing an alarm's bytes leaves every other register as it was. -/
theorem readRegister_storeAll_of_not_mem {l : List (RegisterField × Byte)} {b : Byte} (h : b ∉ l.map (·.2))
    {value : RegisterField × Byte → Byte} {s t : State} (hchip : t.chip = storeAll value l s.chip) :
    readRegister b t = readRegister b s := by
  simp only [readRegister, hchip, lookup_storeAll_of_not_mem h]

/-- Settles O51: the stores go to the set's addresses, each with the byte of its field. -/
theorem storedAlarmSetReachesItsRegisters : Obligations.StoredAlarmSetReachesItsRegisters := by
  intro s a mt hi hlegal
  obtain ⟨⟨m, hm⟩, hsecond⟩ := legalFor_eq_true_iff.1 hlegal
  exact ⟨_, _, exec_almPack hm hsecond s, runHost_storeRegisters_packed hi hm hsecond (.refl _), rfl, rfl,
    fun r hr => readRegister_storeAll_of_mem (s := s) (value := packedRegisterByte a m s.inp) hr rfl,
    fun b hb => readRegister_storeAll_of_not_mem (s := s) (value := packedRegisterByte a m s.inp) hb rfl⟩

/-- Settles O52: a legal match type packs and stores, an illegal one stops at the first transfer. -/
theorem storingAPackIsSafeExactlyWhenLegal : Obligations.StoringAPackIsSafeExactlyWhenLegal := by
  intro s a mt hi
  refine ⟨⟨?onlyLegal, safeHostRun_storeAlarmSet hi⟩, runHost_storeAlarmSet_illegal hi⟩
  case onlyLegal =>
    rintro ⟨t, ht⟩
    by_contra hillegal
    rw [runHost_storeAlarmSet_illegal hi (Bool.eq_false_of_not_eq_true hillegal)] at ht
    cases ht

/-! ### Loading -/

/-- The byte a listed register reads as: the one a program stored, or the free value (R51, R181). -/
def registerByte (m : Memory) (r : RegisterField × Byte) : Byte :=
  (Memory.lookup m r.2.toNat).getD (Config.batteryBackedByte r.2.toNat)

/-- Any order of an alarm's registers is loaded: each byte stands on the port of its field, and the outputs are settled. -/
theorem runHost_loadRegisters_alarm {a : Alarm} {l : List (RegisterField × Byte)} (hl : l.Perm (alarmSet a)) (s : State) :
    ∃ t : State, runHost (loadRegisters l) s = .next t ∧ t.Settled ∧
      t.inp = driveAll RegisterField.inPort (registerByte s.chip) (alarmSet a) s.inp ∧ t.chip = s.chip ∧
      t.freeIndex = s.freeIndex := by
  have hlisted : ∀ r ∈ l, r.2.toNat < 16 := fun r hr => alarmSet_listed a r (hl.mem_iff.1 hr)
  have hne : l ≠ [] := fun h => alarmSet_ne_nil a (List.nil_perm.1 (h ▸ hl))
  obtain ⟨o, h⟩ := runHost_loadRegisters l s hlisted
  exact ⟨_, h, runHost_loadRegisters_settled hlisted hne h,
    (driveAll_perm hl.symm (alarmSet_inPorts_nodup a) s.inp).symm, rfl, rfl⟩

/-- The port of each register of an alarm holds its byte after a load. -/
theorem readRegister_eq_inPort {a : Alarm} {s t : State}
    (hinp : t.inp = driveAll RegisterField.inPort (registerByte s.chip) (alarmSet a) s.inp) :
    ∀ r ∈ alarmSet a, readRegister r.2 s = .ok (t.inp.read r.1.inPort) := by
  intro r hr
  rw [hinp, driveAll_read_of_mem (alarmSet_inPorts_nodup a) hr, readRegister_listed (alarmSet_listed a r hr)]
  rfl

/-- Settles O53: a load drives the ports of the set's fields and nothing else. -/
theorem loadedAlarmSetReachesItsPorts : Obligations.LoadedAlarmSetReachesItsPorts := by
  intro s a
  obtain ⟨t, h, -, hinp, hchip, hfree⟩ := runHost_loadRegisters_alarm (.refl (alarmSet a)) s
  refine ⟨t, h, readRegister_eq_inPort hinp, ?others, ?command, hchip, hfree⟩
  case others =>
    intro d hd
    rw [hinp, driveAll_read_of_not_mem hd]
  case command => rw [hinp, driveAll_command]

/-- A state is its four fields. -/
theorem state_ext {s t : State} (hinp : s.inp = t.inp) (hout : s.out = t.out) (hchip : s.chip = t.chip)
    (hfree : s.freeIndex = t.freeIndex) : s = t := by
  cases s
  cases t
  simp_all

/-- Settles O56: the stores and the drives of one set commute, and what stops a store stops it at the first transfer. -/
theorem transferOrderOfAnAlarmSetDoesNotMatter : Obligations.TransferOrderOfAnAlarmSetDoesNotMatter := by
  intro s a l hl
  refine ⟨?loads, ?stores⟩
  case loads =>
    obtain ⟨t, h, hsettled, hinp, hchip, hfree⟩ := runHost_loadRegisters_alarm hl s
    obtain ⟨t', h', hsettled', hinp', hchip', hfree'⟩ := runHost_loadRegisters_alarm (.refl (alarmSet a)) s
    have hin : t.inp = t'.inp := hinp.trans hinp'.symm
    have hout : t.out = t'.out := settled_out_eq hsettled hsettled' hin
    have hsame : t = t' := state_ext hin hout (hchip.trans hchip'.symm) (hfree.trans hfree'.symm)
    rw [h, loadAlarmSet, h', hsame]
  case stores =>
    intro mt hi
    cases hlegal : mt.legalFor a with
    | true =>
      obtain ⟨⟨m, hm⟩, hsecond⟩ := legalFor_eq_true_iff.1 hlegal
      rw [storeAlarmSet, runHost_storeRegisters_packed hi hm hsecond hl, runHost_storeRegisters_packed hi hm hsecond (.refl _),
        storeAll_perm hl.symm (alarmSet_addresses_nodup a)]
    | false => rw [storeAlarmSet, runHost_storeRegisters_illegal hi hlegal hl, runHost_storeRegisters_illegal hi hlegal (.refl _)]

/-- Presenting packed bytes puts each on the port of its field (R44). -/
theorem presentPacked_read_inPort (p : Inputs) (o : Outputs) (f : RegisterField) :
    (p.presentPacked o).read f.inPort = o.read f.outPort := by
  cases f <;> rfl

/-- Settles O54: the bytes loaded are the packed ones, which unpack to the operands. -/
theorem alarmSurvivesTheChip : Obligations.AlarmSurvivesTheChip := by
  intro s a mt hi hlegal hlossless
  obtain ⟨⟨m, hm⟩, hsecond⟩ := legalFor_eq_true_iff.1 hlegal
  have hstore := runHost_storeRegisters_packed hi hm hsecond (.refl _)
  obtain ⟨u, hload, -, hinp, -, -⟩ := runHost_loadRegisters_alarm (.refl (alarmSet a))
    { s with out := packed a m s.inp, chip := storeAll (packedRegisterByte a m s.inp) (alarmSet a) s.chip }
  have hport : ∀ r ∈ alarmSet a, u.inp.read r.1.inPort = (s.inp.presentPacked (packed a m s.inp)).read r.1.inPort := by
    intro r hr
    have hbyte := readRegister_eq_inPort hinp r hr
    rw [readRegister_storeAll_of_mem hr rfl, Except.ok.injEq] at hbyte
    rw [← hbyte, presentPacked_read_inPort, packedRegisterByte]
  have hunpacked : unpacked a u.inp = unpacked a (s.inp.presentPacked (packed a m s.inp)) := by
    refine unpacked_congr fun d hd => ?_
    obtain ⟨r, hr, rfl⟩ := mem_alarmSet_of_readsPort hd
    exact hport r hr
  have hexec := exec_almUnpack a u
  rw [hunpacked] at hexec
  obtain ⟨hday, hhour, hmin, hsec⟩ := unpacked_packed_of_lossless hlossless m s.inp
  exact ⟨_, u, _, hstore, hload, hexec, congrArg MatchType.code (mtOf_controlMask_packed hm hsecond _ _), hday, hhour, hmin, hsec⟩

end Sys2Proof.Proofs
end

section
/-! Read-modify-write of an alarm (70_reset_and_hazards.md, section 3; 95_test_vectors.md, program 3): the alarm read from the
chip is unpacked, its fields and match type are presented again, and whether it can be re-packed depends on the match type
read. -/

namespace Sys2Proof.Proofs

open Sys2Proof Sys2Proof.Machine Sys2Proof.Laws

/-! ### ALM.UNPACK while its results are presented -/

/-- ALM.UNPACK for an alarm stands on the control ports and the outputs are its result. -/
def Unpacking (a : Alarm) (s : State) : Prop :=
  s.inp.op = 0b101#3 ∧ s.inp.alm = a.bit ∧ s.out = unpacked a s.inp

section Unpacked

variable {a : Alarm} {s : State}

/-- The control ports of `Unpacking` select ALM.UNPACK for the alarm. -/
theorem Unpacking.decodeCommand_eq (h : Unpacking a s) : decodeCommand s.inp.command = .almUnpack a := by
  obtain ⟨hop, halm, -⟩ := h
  simp [decodeCommand, opField_command, almField_command, hop, halm]

/-- A state with ALM.UNPACK and its result on the ports is left as it is by ALM.UNPACK. -/
theorem Unpacking.exec_eq (h : Unpacking a s) : exec (.almUnpack a) s = .next s := by
  obtain ⟨-, -, hout⟩ := h
  rw [exec_almUnpack, ← hout]

theorem Unpacking.settled (h : Unpacking a s) : s.Settled := by
  rw [State.Settled, step, h.decodeCommand_eq, h.exec_eq]

/-- Input ports that ALM.UNPACK does not read may be driven: the same outputs stand. -/
theorem Unpacking.step_withInp (h : Unpacking a s) {p : Inputs} (hop : p.op = s.inp.op) (halm : p.alm = s.inp.alm)
    (hports : unpacked a p = unpacked a s.inp) :
    step { s with inp := p } = .next { s with inp := p } ∧ Unpacking a { s with inp := p } := by
  obtain ⟨hop', halm', hout⟩ := h
  have hnext : Unpacking a { s with inp := p } := ⟨hop.trans hop', halm.trans halm', hout.trans hports.symm⟩
  exact ⟨hnext.settled, hnext⟩

/-- Driving a data port leaves the control ports as they were. -/
theorem drive_control (p : Inputs) (d : DataPort) (v : Byte) :
    (p.drive d v).op = p.op ∧ (p.drive d v).alm = p.alm ∧ (p.drive d v).mt = p.mt := by
  cases d <;> exact ⟨rfl, rfl, rfl⟩

/-- A field's operand may be driven while ALM.UNPACK stands on the control ports. -/
theorem Unpacking.step_drive (h : Unpacking a s) (f : RegisterField) (v : Byte) :
    step { s with inp := s.inp.drive f.operandPort v } = .next { s with inp := s.inp.drive f.operandPort v } ∧
      Unpacking a { s with inp := s.inp.drive f.operandPort v } := by
  obtain ⟨hop, halm, -⟩ := drive_control s.inp f.operandPort v
  exact h.step_withInp hop halm (unpacked_drive_operand a s.inp f v)

/-- Settled outputs under ALM.UNPACK's command word are its result. -/
theorem unpacking_of_settled (hsettled : s.Settled) (hcommand : s.inp.command = encode (.almUnpack a)) : Unpacking a s := by
  refine ⟨by rw [← opField_command, hcommand, encode, opField_join], by rw [← almField_command, hcommand, encode, almField_join], ?_⟩
  rw [State.Settled, step, hcommand, decodeCommand_encode, exec_almUnpack, Host.Outcome.next.injEq] at hsettled
  exact (congrArg State.out hsettled).symm

/-- The match type ALM.UNPACK delivers is that of the mask in the register bytes (R142). -/
theorem Unpacking.ofCode_mtOut (h : Unpacking a s) : MatchType.ofCode s.out.mtOut = mtOf (controlMask a s.inp) := by
  obtain ⟨-, -, hout⟩ := h
  rw [hout]
  exact ofCode_code _

/-- The match type read is legal for the alarm unless it is Invalid (R131, R140). -/
theorem Unpacking.legalFor_mtOut (h : Unpacking a s) (hvalid : s.out.mtOut ≠ 7#3) :
    (MatchType.ofCode s.out.mtOut).legalFor a = true := by
  have hmt : mtOf (controlMask a s.inp) ≠ .invalid := by
    rw [← h.ofCode_mtOut]
    exact fun hinvalid => hvalid ((code_ofCode _).symm.trans (congrArg MatchType.code hinvalid))
  obtain ⟨hrow, hsecond⟩ := legal_of_mtOf_controlMask hmt
  rw [h.ofCode_mtOut]
  exact legalFor_eq_true_iff.2 ⟨⟨_, hrow⟩, hsecond⟩

/-! ### The actions of a read-modify-write -/

/-- A result of ALM.UNPACK is used as it stands. -/
theorem Unpacking.useOutput_eq (h : Unpacking a s) {q : OutPort} (hq : carriesResult (.almUnpack a) q = true)
    (k : Byte → State → Host.Outcome State Fault Refusal) : useOutput q k s = k (s.out.read q) s := by
  have herr : s.out.err = 0 := by
    obtain ⟨-, -, hout⟩ := h
    rw [hout]
    rfl
  exact useOutput_settled h.settled herr (by rw [h.decodeCommand_eq, hq])

/-- A field's operand is driven; the outputs stay those of ALM.UNPACK. -/
theorem Unpacking.hostStep_setData (h : Unpacking a s) (f : RegisterField) (v : Byte) :
    let t : State := { s with inp := s.inp.drive f.operandPort v }
    hostStep (.setData f.operandPort v) s = .next t ∧ Unpacking a t :=
  h.step_drive f v

/-- The field values of a list of registers are presented for packing; the outputs stay those of ALM.UNPACK. -/
theorem Unpacking.runHost_feedBack (h : Unpacking a s) {l : List (RegisterField × Byte)}
    (hl : ∀ r ∈ l, carriesResult (.almUnpack a) r.1.valuePort = true) :
    let t : State := { s with inp := driveAll RegisterField.operandPort (fun r => s.out.read r.1.valuePort) l s.inp }
    runHost (.sequence (l.map fun r => .feedBack r.1.valuePort r.1.operandPort) .done) s = .next t ∧ Unpacking a t := by
  induction l generalizing s with
  | nil => exact ⟨rfl, h⟩
  | cons r l ih =>
    obtain ⟨hr, hl⟩ := List.forall_mem_cons.1 hl
    obtain ⟨hstep, hnext⟩ := h.step_drive r.1 (s.out.read r.1.valuePort)
    have hfirst := (h.useOutput_eq hr fun v t => step { t with inp := t.inp.drive r.1.operandPort v }).trans hstep
    rw [← hostStep_feedBack_eq] at hfirst
    rw [List.map_cons, sequence_cons, runHost_act hfirst]
    exact ih hnext hl

/-- The match type read is presented on `mt`, which ALM.UNPACK does not read. -/
theorem Unpacking.hostStep_feedMatchType (h : Unpacking a s) :
    let t : State := { s with inp := { s.inp with mt := s.out.mtOut } }
    hostStep .feedMatchType s = .next t ∧ Unpacking a t := by
  obtain ⟨hstep, hnext⟩ := h.step_withInp (p := { s.inp with mt := s.out.mtOut }) rfl rfl rfl
  have hcarries : carriesResult (.almUnpack a) .mtOut = true := by cases a <;> rfl
  refine ⟨?_, hnext⟩
  rw [hostStep_feedMatchType_eq, h.useOutput_eq hcarries, setWidth_read_mtOut, hstep]

end Unpacked

/-- An alarm is read from the chip and unpacked (R44, R140). -/
theorem runHost_readAlarmActions (a : Alarm) (s : State) :
    ∃ u, runHost (.sequence (readAlarmActions a) .done) s = .next u ∧ Unpacking a u ∧
      (∀ r ∈ alarmSet a, readRegister r.2 s = .ok (u.inp.read r.1.inPort)) ∧ u.chip = s.chip ∧ u.freeIndex = s.freeIndex := by
  obtain ⟨t, ht⟩ := step_completes { s with inp := s.inp.withCommand (encode (.almUnpack a)) }
  obtain ⟨-, -, hinp, hchip, hfree⟩ := step_frame ht
  obtain ⟨u, hload, hsettled, huinp, huchip, hufree⟩ := runHost_loadRegisters_alarm (.refl (alarmSet a)) t
  have hcommand : u.inp.command = encode (.almUnpack a) := by
    rw [huinp, driveAll_command, hinp]
    exact withCommand_command _ _
  refine ⟨u, (runHost_act (a := .setCommand _) ht _).trans hload, unpacking_of_settled hsettled hcommand, ?_,
    huchip.trans hchip, hufree.trans hfree⟩
  intro r hr
  have hsame : readRegister r.2 t = readRegister r.2 s := readRegister_congr hchip r.2
  exact hsame.symm.trans (readRegister_eq_inPort huinp r hr)

/-- The field values that were unpacked, presented for packing (95, program 3, step 2). -/
def fieldInputs (a : Alarm) (u : State) : Inputs :=
  driveAll RegisterField.operandPort (fun r => u.out.read r.1.valuePort) (alarmSet a) u.inp

/-- The inputs a read-modify-write presents: the field values that were unpacked, the match type that was read, and one
field changed (95, program 3, steps 2 and 3). -/
def presentedInputs (a : Alarm) (f : RegisterField) (v : Byte) (u : State) : Inputs :=
  { fieldInputs a u with mt := u.out.mtOut }.drive f.operandPort v

/-- The inputs of the re-packing: those presented, with ALM.PACK selected (95, program 3, step 3). -/
def repackInputs (a : Alarm) (f : RegisterField) (v : Byte) (u : State) : Inputs :=
  { presentedInputs a f v u with op := 0b100#3 }

/-- A read-modify-write ends with the evaluation of the re-packing. -/
theorem runHost_modifyAlarm {a : Alarm} {s u : State} (hread : runHost (.sequence (readAlarmActions a) .done) s = .next u)
    (hu : Unpacking a u) (f : RegisterField) (v : Byte) {w : State}
    (hw : step { u with inp := repackInputs a f v u } = .next w) : runHost (modifyAlarm a f v) s = .next w := by
  obtain ⟨hfeed, hfed⟩ := hu.runHost_feedBack (carriesResult_almUnpack a)
  obtain ⟨hmatch, hmatched⟩ := hfed.hostStep_feedMatchType
  obtain ⟨hset, -⟩ := hmatched.hostStep_setData f v
  have hselect : hostStep (.selectOperation 0b100#3) { u with inp := presentedInputs a f v u } = .next w := hw
  rw [modifyAlarm, List.append_assoc, sequence_append, runHost_sequence hread, sequence_append, runHost_sequence hfeed,
    sequence_cons, runHost_act hmatch, sequence_cons, runHost_act hset, sequence_cons]
  exact runHost_act hselect .done

/-! ### The re-packing -/

/-- Different fields are packed from different ports (R24). -/
theorem operandPort_injective : Function.Injective RegisterField.operandPort := by
  intro f g
  cases f <;> cases g <;> simp [RegisterField.operandPort]

/-- Driving `op` leaves the data ports as they were. -/
theorem withOp_read (p : Inputs) (op : BitVec 3) (d : DataPort) : ({ p with op := op } : Inputs).read d = p.read d := by
  cases d <;> rfl

/-- Driving `mt` leaves the data ports as they were. -/
theorem withMt_read (p : Inputs) (mt : BitVec 3) (d : DataPort) : ({ p with mt := mt } : Inputs).read d = p.read d := by
  cases d <;> rfl

section Repacking

variable {a : Alarm} {u : State} (f : RegisterField) (v : Byte)

/-- The alarm stands on `alm` as it did when it was unpacked. -/
theorem presentedInputs_alm : (presentedInputs a f v u).alm = u.inp.alm := by
  obtain ⟨-, halm, -⟩ := drive_control { fieldInputs a u with mt := u.out.mtOut } f.operandPort v
  calc (presentedInputs a f v u).alm = (fieldInputs a u).alm := halm
    _ = almField (fieldInputs a u).command := (almField_command _).symm
    _ = u.inp.alm := by rw [fieldInputs, driveAll_command, almField_command]

/-- The match type read stands on `mt`. -/
theorem presentedInputs_mt : (presentedInputs a f v u).mt = u.out.mtOut := by
  obtain ⟨-, -, hmt⟩ := drive_control { fieldInputs a u with mt := u.out.mtOut } f.operandPort v
  exact hmt

/-- The re-packing's command word is ALM.PACK with the alarm and the match type read (R195). -/
theorem repackInputs_command (hu : Unpacking a u) :
    (repackInputs a f v u).command = joinFields 0b100#3 a.bit u.out.mtOut := by
  obtain ⟨-, halm, -⟩ := hu
  calc (repackInputs a f v u).command = joinFields 0b100#3 (presentedInputs a f v u).alm (presentedInputs a f v u).mt := rfl
    _ = joinFields 0b100#3 a.bit u.out.mtOut := by rw [presentedInputs_alm, presentedInputs_mt, halm]

/-- The changed field is packed from the new value. -/
theorem repackInputs_read_changed : (repackInputs a f v u).read f.operandPort = v := by
  rw [repackInputs, withOp_read, presentedInputs, drive_read_same]

/-- Every other field is packed from the value that was unpacked. -/
theorem repackInputs_read_kept {r : RegisterField × Byte} (hr : r ∈ alarmSet a) (hne : r.1 ≠ f) :
    (repackInputs a f v u).read r.1.operandPort = u.out.read r.1.valuePort := by
  have hport : r.1.operandPort ≠ f.operandPort := fun h => hne (operandPort_injective h)
  rw [repackInputs, withOp_read, presentedInputs, drive_read_ne _ _ _ _ hport, withMt_read, fieldInputs,
    driveAll_read_of_mem (alarmSet_operandPorts_nodup a) hr]

end Repacking

/-- Settles O57: the re-packing is ALM.PACK with the match type read, which is legal for the alarm unless it is Invalid. -/
theorem invalidAlarmCannotBeWrittenBack : Obligations.InvalidAlarmCannotBeWrittenBack := by
  intro s a f v
  obtain ⟨u, hread, hu, hports, huchip, hufree⟩ := runHost_readAlarmActions a s
  obtain ⟨w, hw⟩ := step_completes { u with inp := repackInputs a f v u }
  obtain ⟨hsettled, -, hinp, hchip, hfree⟩ := step_frame hw
  have hcommand : w.inp.command = joinFields 0b100#3 a.bit u.out.mtOut := by
    rw [hinp]
    exact repackInputs_command f v hu
  have hi : decodeCommand w.inp.command = .almPack a (MatchType.ofCode u.out.mtOut) := by
    obtain ⟨-, -, -, -, hpack, -⟩ := decodeCommand_join_rows a.bit u.out.mtOut
    rw [hcommand, hpack, ofBit_bit]
  have hexec : exec (.almPack a (MatchType.ofCode u.out.mtOut)) w = .next w := by
    rwa [State.Settled, step, hi] at hsettled
  refine ⟨u, w, hread, hu.exec_eq, hports, runHost_modifyAlarm hread hu f v hw, hexec, hcommand, ?changed, ?kept,
    hchip.trans huchip, hfree.trans hufree, ?invalid, ?valid, ?chosen⟩
  case changed =>
    rw [hinp]
    exact repackInputs_read_changed f v
  case kept =>
    intro r hr hne
    rw [hinp]
    exact repackInputs_read_kept f v hr hne
  case invalid =>
    intro hinvalid
    have hillegal : (MatchType.ofCode u.out.mtOut).legalFor a = false := by
      rw [hinvalid]
      cases a <;> rfl
    have herr : w.out.err = 1#2 := (err_eq_one_iff hexec).2 ⟨a, _, .inr rfl, hillegal⟩
    refine ⟨herr, ?_, runHost_storeAlarmSet_illegal hi hillegal⟩
    rw [errVal_eq_code hexec (.inr rfl) herr, code_ofCode, hinvalid]
  case valid =>
    intro hvalid
    have hlegal := hu.legalFor_mtOut hvalid
    exact ⟨(err_eq_zero_iff hexec).2 hlegal, safeHostRun_storeAlarmSet hi hlegal⟩
  case chosen =>
    intro mt hlegal
    obtain ⟨x, hx⟩ := step_completes { w with inp := w.inp.withCommand (encode (.almPack a mt)) }
    obtain ⟨-, -, hxinp, -, -⟩ := step_frame hx
    have hxi : decodeCommand x.inp.command = .almPack a mt := by
      rw [hxinp, withInp_inp, withCommand_command, decodeCommand_encode]
    have hpack := hx
    rw [step, withInp_inp, withCommand_command, decodeCommand_encode] at hpack
    exact ⟨x, hx, (err_eq_zero_iff hpack).2 hlegal, safeHostRun_storeAlarmSet hxi hlegal⟩

end Sys2Proof.Proofs
end
